-- ==== Sys2Proof/Word.lean ====
section
/-! DEFINITION. The two bit-vector types of LCX (00_scope.md rule R10, 20_memory.md rule R60). -/

namespace Sys2Proof

/-- A byte, 0..255 (R10). -/
abbrev Byte := BitVec 8

/-- A 32-bit word of the host bus, of a register or of a command (R20, R60, R90). -/
abbrev Word := BitVec 32

end Sys2Proof
end

