-- ==== Sys2Proof/Config.lean ====
section
/-! DEFINITION. What an implementation of LCX fixes (00_scope.md rule R8, 20_memory.md rule R60), the registers it hides
(10_state.md rule R52), and the free values: constants with no body, of which no proof can see a value. -/

namespace Sys2Proof

/-- The named parameters of one implementation (R8) and its place in the platform (R60, R79). -/
structure Params where
  /-- KEY_BYTES, read by the host as KEY_SIZE (R33). -/
  keyBytes : Nat
  /-- DATA_BYTES, read by the host as DATA_SIZE (R33). -/
  dataBytes : Nat
  /-- MAX_PIXELS, read by the host as PIX_SIZE (R33). -/
  maxPixels : Nat
  /-- LCX_BASE, the system address of bus offset 0; the platform chooses it (R60). -/
  lcxBase : Nat
  deriving DecidableEq, Repr

/-- The reference configuration (R8). DESIGN CHOICE: LCX_BASE = 0, log entry 8. -/
def Params.reference : Params where
  keyBytes := 256
  dataBytes := 65536
  maxPixels := 4194304
  lcxBase := 0

/-- PIX_BYTES, the bytes of one stored pixel (R8, R43). -/
def pixBytes : Nat := 4

/-- MAX_RECOVERY_RESET, the reset value of MAX_RECOVERY_BYTES (R8, R27). -/
def maxRecoveryReset : Word := 4096

/-- The hidden registers of the datapath (R52). No host access shows them, and a command initializes each one it uses
(R240). Machine/Datapath.lean runs them as the hardware forms R114, R124 and R136 do. -/
structure Datapath where
  /-- The traversal cursor p, the index of the next pixel (R39). -/
  cursor : Nat
  /-- The bit position j within the current byte, and the deserializer's count c (R52, R114). -/
  bitPos : Nat
  /-- The byte index i (R52). -/
  byteIdx : Nat
  /-- The key index ki = i mod K (R124). -/
  keyIdx : Nat
  /-- The shift register of the byte being assembled (R114). -/
  acc : Byte
  /-- The last bytes, at most six, the sentinel search has seen (R136). -/
  window : List Byte
  /-- Where the sentinel search has first matched (R136). -/
  hit : Option Nat
  deriving DecidableEq, Repr, Inhabited

/-- FREE VALUE, log entry 2: how many moves of the host pass, at the instance whose LCX_BASE is the first argument, before
the command accepted at count `n` completes. R51 and R251 say only that it is finite. The base is an argument so that
the latencies of several instances, each at its own LCX_BASE (R217), stay unrelated (log entry 22). -/
opaque Config.latency : Nat → Nat → Nat

/-- FREE VALUE, log entry 4: what the hidden registers hold, at the instance of that LCX_BASE and that count, after a
command has run its datapath (R52, I5). -/
opaque Config.datapathAfter : Nat → Nat → Datapath

end Sys2Proof
end

