-- ==== Sys2Proof/Syntax.lean ====
section
/-! DEFINITION. The commands of LCX (30_encoding.md rule R92), the registers a host names (10_state.md rule R20) and the
bus transactions it issues (30_encoding.md rule R96). -/

namespace Sys2Proof

/-- The seven commands. A command word carries no operand (R91), so no constructor has an argument. -/
inductive Instr where
  | nop
  | cipher
  | embed
  | recover
  | clear
  | hide
  | extract
  deriving DecidableEq, Repr

/-- The fourteen registers, in the order of R20's table. -/
inductive Reg where
  | cmd
  | status
  | width
  | height
  | payloadLen
  | keyLen
  | maxRecovery
  | recovLen
  | foundLen
  | capacity
  | id
  | keySize
  | dataSize
  | pixSize
  deriving DecidableEq, Repr

/-- The three buffers (R41, R42, R43). -/
inductive Buf where
  | key
  | data
  | pix
  deriving DecidableEq, Repr

/-- The size of one host access: 1, 2 or 4 bytes (R60). -/
inductive AccessSize where
  | byte
  | half
  | word
  deriving DecidableEq, Repr

/-- What the host can do to LCX in one move. Addresses are byte offsets from LCX_BASE (R60). -/
inductive HostOp where
  /-- A bus read, MemRead(addr, n) (R67, R69). -/
  | read (addr : Word) (size : AccessSize)
  /-- A bus write, MemWrite(addr, n, v) (R68, R69). -/
  | write (addr : Word) (size : AccessSize) (value : Word)
  /-- WAIT: read STATUS until BUSY is 0 (R97). -/
  | poll
  /-- Assert and release the reset input (R240). -/
  | reset
  deriving DecidableEq, Repr

end Sys2Proof
end

