-- ==== Sys2Proof/WellFormed.lean ====
section
/-! DEFINITION. What is well formed: a command, a command word (30_encoding.md rule R93), a configuration (00_scope.md
rule R8) and a host transaction's shape (20_memory.md rule R66). -/

namespace Sys2Proof

/-- A command has no operand (R91), so every one is well formed. One case per constructor, so that a new one must say. -/
def Instr.wf : Instr → Bool
  | .nop => true
  | .cipher => true
  | .embed => true
  | .recover => true
  | .clear => true
  | .hide => true
  | .extract => true

/-- RSVD = 0 and OP is one of the seven (R90, R92, R93). -/
def cmdWordWf (c : Word) : Bool :=
  c.extractLsb 31 4 == 0 && (c.extractLsb 3 0).toNat ≤ 6

/-- The legal ranges of R8. -/
abbrev Params.Legal (p : Params) : Prop :=
  (1 ≤ p.keyBytes ∧ p.keyBytes ≤ 4096) ∧
  (4096 ≤ p.dataBytes ∧ p.dataBytes ≤ 0x00FF0000) ∧
  (1 ≤ p.maxPixels ∧ p.maxPixels ≤ 0x3FC00000)

/-- How many bytes an access moves (R60). -/
def AccessSize.bytes : AccessSize → Nat
  | .byte => 1
  | .half => 2
  | .word => 4

/-- An access is aligned to its own size (R66); WAIT and reset are always well formed. -/
def HostOp.wf : HostOp → Bool
  | .read a n => a.toNat % n.bytes == 0
  | .write a n _ => a.toNat % n.bytes == 0
  | .poll => true
  | .reset => true

end Sys2Proof
end

