-- ==== Sys2Proof/Decode.lean ====
section
/-! DEFINITION. The bus's byte order (20_memory.md rule R64), the decoder of command words, total and rejecting by name
(30_encoding.md rules R90–R94), and after it the encoder. -/

namespace Sys2Proof

/-- The `n` low bytes of `v`, the least significant first: byte k is `v[8k+7:8k]` (R64, R68). -/
def leBytes (n : Nat) (v : Word) : List Byte :=
  (List.range n).map fun k => (v >>> (8 * k)).setWidth 8

/-- The word whose byte lane k holds the k-th byte, other lanes 0 (R64, R67). -/
def leWord : List Byte → Word
  | [] => 0
  | b :: bs => b.setWidth 32 ||| (leWord bs <<< 8)

/-- Why a word is illegal (R93). -/
inductive IllegalWhy where
  /-- RSVD is not 0, whatever OP holds. -/
  | rsvdNonzero
  /-- RSVD is 0 and OP is one of 0x7..0xF. -/
  | opReserved
  deriving DecidableEq, Repr

/-- Every 32-bit value is exactly one of the seven commands or ILLEGAL (R94). -/
inductive Decoded where
  | cmd (i : Instr)
  | illegal (why : IllegalWhy)
  deriving DecidableEq, Repr

/-- OP, bits [3:0] (R90). -/
def opField (c : Word) : BitVec 4 := c.extractLsb 3 0

/-- RSVD, bits [31:4] (R90). -/
def rsvdField (c : Word) : BitVec 28 := c.extractLsb 31 4

/-- The opcode map (R92). -/
def decodeOp (op : BitVec 4) : Decoded :=
  match op.toNat with
  | 0 => .cmd .nop
  | 1 => .cmd .cipher
  | 2 => .cmd .embed
  | 3 => .cmd .recover
  | 4 => .cmd .clear
  | 5 => .cmd .hide
  | 6 => .cmd .extract
  | _ => .illegal .opReserved

/-- `decode(c)` (R94). -/
def decodeWord (c : Word) : Decoded :=
  if rsvdField c = 0 then decodeOp (opField c) else .illegal .rsvdNonzero

/-- What a decoder that takes bytes answers: it needs the four bytes of one CMD32 word (R90, R95). -/
inductive DecodedBytes where
  /-- The word of the first four bytes, and the bytes after it. -/
  | word (d : Decoded) (rest : List Byte)
  /-- Fewer than four bytes: no command is shorter than 32 bits (R90). -/
  | tooShort
  deriving DecidableEq, Repr

/-- Decode the bytes of a 4-byte CMD write, in the bus's order (R64, R90). -/
def decodeBytes : List Byte → DecodedBytes
  | b0 :: b1 :: b2 :: b3 :: rest => .word (decodeWord (leWord [b0, b1, b2, b3])) rest
  | _ => .tooShort

/-- OP of a command (R92). -/
def opOf : Instr → BitVec 4
  | .nop => 0
  | .cipher => 1
  | .embed => 2
  | .recover => 3
  | .clear => 4
  | .hide => 5
  | .extract => 6

/-- The word of a command: RSVD = 0 above OP (R90, R92). -/
def encode (i : Instr) : Word := (0 : BitVec 28) ++ opOf i

/-- The four bytes of a command's word, in the bus's order (R64). -/
def encodeBytes (i : Instr) : List Byte := leBytes 4 (encode i)

/-- The instruction the decoder reads from an instruction whose bits are `w`, bit 0 the least significant bit of the
word, every bit from `nbits` up being 0. A CMD write moves exactly 32 bits (R90), so bits past 31 are refused
(log entry 19). -/
def decodeTableWord (nbits w : Nat) : Option Instr :=
  let bits := w % 2 ^ nbits
  if bits < 2 ^ 32 then
    match decodeBytes (leBytes 4 (BitVec.ofNat 32 bits)) with
    | .word (.cmd i) _ => some i
    | .word (.illegal _) _ => none
    | .tooShort => none
  else none

end Sys2Proof
end

