-- ==== Sys2Proof/Machine/State.lean ====
section
/-! DEFINITION. The state of LCX and of its host (10_state.md), plain data, and the state after reset
(70_reset_and_hazards.md rule R240). -/

namespace Sys2Proof.Machine

/-- The error codes a command can complete with (60_exceptions.md rule R200). Codes 5..15 are never produced
(93_implementation_defined.md entry I8), so they have no constructor. -/
inductive ErrCode where
  | none
  | illegalCmd
  | dimRange
  | lenRange
  | capacityExceeded
  deriving DecidableEq, Repr

/-- The result of the last EXTRACT (R23, R205). Code 3 is never produced (I8). -/
inductive ResultCode where
  | none
  | found
  | notFound
  deriving DecidableEq, Repr

/-- The fields of STATUS (R23). Its reserved bits hold nothing: they read 0 (R21). -/
structure Status where
  /-- [0] BUSY, from acceptance to completion. -/
  busy : Bool
  /-- [1] DONE, set at every completion, cleared at acceptance and by writing 1. -/
  done : Bool
  /-- [2] OVR, set when a write is dropped while busy, cleared by writing 1. -/
  ovr : Bool
  /-- [7:4] ERR of the last completed command. -/
  err : ErrCode
  /-- [9:8] RESULT of the last completed EXTRACT. -/
  result : ResultCode
  deriving DecidableEq, Repr

/-- The engine's phase (R50, R51). -/
inductive Phase where
  | idle
  | busy
  deriving DecidableEq, Repr

/-- The copy S of the command and of the configuration registers, taken at acceptance (R50). -/
structure Snapshot where
  cmd : Word
  w : BitVec 16
  h : BitVec 16
  n : Word
  k : Word
  m : Word
  deriving DecidableEq, Repr

/-- KEY, DATA and PIX as one memory over the host-bus map (20_memory.md rules R61, R63): pairs of a byte offset from
LCX_BASE and a byte, the offsets strictly rising. An offset that is not listed holds no value: it is `unwritten`
(00_scope.md rule R13). -/
abbrev Memory := List Host.Cell

/-- Why the machine stops (60_exceptions.md rule R208). Each is the spec's own model fault. -/
inductive Fault where
  /-- UNINIT_READ: the engine (any command that reads a buffer) or the host read a byte nothing has written (R13, I1).
  Safe: the hardware goes on with an unspecified byte. -/
  | uninitRead
  /-- HOST_BUSERR: a host access got a bus error (R69, I2); `readData` is what the data lines return, 0.
  Safe: the hardware answers the host with an error and changes no state. -/
  | hostBusErr (readData : Word)
  /-- BUSY_HAZARD: the host touched a buffer byte while STATUS.BUSY = 1 (R246, I3).
  Safe: the hardware's result is UNPREDICTABLE. -/
  | busyHazard
  deriving DecidableEq, Repr

/-- Why a step has no meaning. -/
inductive Refusal where
  /-- Raised by an arm of `exec` whose instruction has no meaning yet; no arm does. Safe. -/
  | notModelled (mnemonic : String)
  deriving DecidableEq, Repr

/-- The state of one LCX and of its host. -/
structure State where
  /-- The implementation's parameters; KEY_SIZE, DATA_SIZE and PIX_SIZE read them (R8, R33). No step changes them. -/
  params : Params
  /-- STATUS (R23). -/
  status : Status
  /-- WIDTH[15:0], W (R25). -/
  width : BitVec 16
  /-- HEIGHT[15:0], H (R26). -/
  height : BitVec 16
  /-- PAYLOAD_LEN, N (R28). -/
  payloadLen : Word
  /-- KEY_LEN, K (R29). -/
  keyLen : Word
  /-- MAX_RECOVERY_BYTES, M (R27). -/
  maxRecovery : Word
  /-- RECOV_LEN, R (R30). -/
  recovLen : Word
  /-- FOUND_LEN, L (R31). -/
  foundLen : Word
  /-- The engine's phase (R50). -/
  phase : Phase
  /-- The snapshot S (R50). -/
  snap : Snapshot
  /-- The hidden registers of the datapath (R52). -/
  datapath : Datapath
  /-- The KEY, DATA and PIX buffers (R41–R43, R61). -/
  mem : Memory
  /-- The host's pending transactions, oldest first (R15, R72; log entry 1). -/
  host : List HostOp
  /-- The values the host's reads have returned, newest first (R67, R69; log entry 1). -/
  readLog : List Word
  /-- The MODEL's own: the host moves left before a busy engine completes (R51, R251; log entry 2). -/
  wait : Nat
  /-- The MODEL's own: how many free values have been drawn (log entries 2 and 4). -/
  nonce : Nat
  deriving DecidableEq, Repr

/-- The state after reset of an implementation with parameters `p` (R240). The snapshot (log entry 5), the hidden
registers (log entry 4) and the model's own fields (log entry 6) hold named values: DESIGN CHOICE. -/
def State.resetWith (p : Params) : State where
  params := p
  status := ⟨false, false, false, .none, .none⟩
  width := 0
  height := 0
  payloadLen := 0
  keyLen := 0
  maxRecovery := maxRecoveryReset
  recovLen := 0
  foundLen := 0
  phase := .idle
  snap := ⟨0, 0, 0, 0, 0, 0⟩
  datapath := ⟨0, 0, 0, 0, 0, [], .none⟩
  mem := []
  host := []
  readLog := []
  wait := 0
  nonce := 0

/-- The reference configuration of LCX right after reset (R8, R240). -/
def State.reset : State := State.resetWith Params.reference

end Sys2Proof.Machine
end

