-- ==== Sys2Proof/Machine/Flags.lean ====
section
/-! DEFINITION. STATUS: its codes, the word a read returns, its write-one-to-clear bits, and what acceptance, completion
and a dropped write do to it (10_state.md rules R23, R24, R36, R50, R51; 60_exceptions.md rules R200–R205). -/

namespace Sys2Proof.Machine

/-- STATUS.ERR's four bits (R200). -/
def ErrCode.code : ErrCode → BitVec 4
  | .none => 0
  | .illegalCmd => 1
  | .dimRange => 2
  | .lenRange => 3
  | .capacityExceeded => 4

/-- STATUS.RESULT's two bits (R23, R205). -/
def ResultCode.code : ResultCode → BitVec 2
  | .none => 0
  | .found => 1
  | .notFound => 2

/-- The word a read of STATUS returns: R23's table, bit 31 first. -/
def Status.toWord (st : Status) : Word :=
  (0 : BitVec 22) ++ st.result.code ++ st.err.code ++ (0 : BitVec 1) ++
    BitVec.ofBool st.ovr ++ BitVec.ofBool st.done ++ BitVec.ofBool st.busy

/-- A host write of `v` to STATUS: bit 1 clears DONE and bit 2 clears OVR, nothing else changes (R24). -/
def Status.w1c (st : Status) (v : Word) : Status :=
  { st with
    done := st.done && !v.getLsbD 1
    ovr := st.ovr && !v.getLsbD 2 }

/-- Acceptance sets BUSY and clears DONE, ERR and RESULT; OVR is unchanged (R50). -/
def Status.accepted (st : Status) : Status :=
  { st with busy := true, done := false, err := .none, result := .none }

/-- Completion with error code `e`: BUSY falls, DONE rises (R51, R203, R204). RESULT keeps what acceptance or the
command's own rule wrote. -/
def Status.completed (st : Status) (e : ErrCode) : Status :=
  { st with busy := false, done := true, err := e }

/-- A dropped write sets OVR (R36). -/
def Status.overrun (st : Status) : Status := { st with ovr := true }

end Sys2Proof.Machine
end

