-- ==== Sys2Proof/Machine/Ops.lean ====
section
/-! DEFINITION. The named operations over memory and registers: bytes of a buffer (20_memory.md rules R61, R67, R68, R71),
the register file (10_state.md rules R20–R36), acceptance (R50), the abort of a command and its normal completion
(60_exceptions.md rules R203, R204), and the reset input (70_reset_and_hazards.md rule R240). -/

namespace Sys2Proof.Machine

/-! ### Memory -/

/-- The byte at offset `a`, or none where nothing has written it (R13). -/
def Memory.read : Memory → Nat → Option Byte
  | [], _ => none
  | (k, b) :: m, a => if a = k then some b else Memory.read m a

/-- Write one byte, keeping the offsets strictly rising (R68, R71). -/
def Memory.write : Memory → Nat → Byte → Memory
  | [], a, v => [(a, v)]
  | (k, b) :: m, a, v =>
    if a < k then (a, v) :: (k, b) :: m
    else if a = k then (a, v) :: m
    else (k, b) :: Memory.write m a v

/-- Every listed offset is above `lo`, and they rise strictly. -/
def Memory.risesFrom : Nat → Memory → Bool
  | _, [] => true
  | lo, (k, _) :: m => decide (lo < k) && Memory.risesFrom k m

/-- The canonical form: strictly rising offsets. An unlisted byte reads as no value, so no entry equals it. -/
def Memory.wf : Memory → Bool
  | [] => true
  | (k, _) :: m => Memory.risesFrom k m

/-- The `n` bytes at `a`, `a + d`, `a + 2d`, …, or none if one of them is unwritten. Stride 1 reads a run of bytes,
stride 4 one channel of successive pixels (R44). -/
def Memory.readEvery (m : Memory) (d : Nat) : Nat → Nat → Option (List Byte)
  | _, 0 => some []
  | a, n + 1 =>
    match m.read a, Memory.readEvery m d (a + d) n with
    | some b, some bs => some (b :: bs)
    | _, _ => none

/-- Write the listed bytes at `a`, `a + d`, `a + 2d`, …. -/
def Memory.writeEvery (d : Nat) : Memory → Nat → List Byte → Memory
  | m, _, [] => m
  | m, a, b :: bs => Memory.writeEvery d (m.write a b) (a + d) bs

/-! ### The address map (R61) -/

/-- KEY_BASE. -/
def keyBase : Nat := 0x1000

/-- DATA_BASE. -/
def dataBase : Nat := 0x00010000

/-- PIX_BASE. -/
def pixBase : Nat := 0x01000000

/-- KEY[i] stands at KEY_BASE + i. -/
def keyAddr (i : Nat) : Nat := keyBase + i

/-- DATA[i] stands at DATA_BASE + i. -/
def dataAddr (i : Nat) : Nat := dataBase + i

/-- PIX[i] stands at PIX_BASE + i. -/
def pixAddr (i : Nat) : Nat := pixBase + i

/-- Blue(p) is PIX[4p + 2] (R44). -/
def blueAddr (p : Nat) : Nat := pixAddr (pixBytes * p + 2)

/-- The pixel index of column x and row y in an image of width `w` (R44). -/
def pixelIndex (w x y : Nat) : Nat := y * w + x

/-- KEY[i], DATA[i], PIX[i] and Blue(p) as the engine sees them (R12, R71). -/
def State.key (s : State) (i : Nat) : Option Byte := s.mem.read (keyAddr i)

@[inherit_doc State.key]
def State.data (s : State) (i : Nat) : Option Byte := s.mem.read (dataAddr i)

@[inherit_doc State.key]
def State.pix (s : State) (i : Nat) : Option Byte := s.mem.read (pixAddr i)

@[inherit_doc State.key]
def State.blue (s : State) (p : Nat) : Option Byte := s.mem.read (blueAddr p)

/-- The system address of a bus offset: LCX_BASE + offset (R60). -/
def systemAddr (p : Params) (off : Word) : Nat := p.lcxBase + off.toNat

/-- The bus offset of a system address, if it lies in the 32-bit space above LCX_BASE (R60). -/
def busOffset (p : Params) (sys : Nat) : Option Word :=
  if p.lcxBase ≤ sys ∧ sys < p.lcxBase + 2 ^ 32 then some (BitVec.ofNat 32 (sys - p.lcxBase)) else none

/-! ### The register file -/

/-- The offset of a register (R20). -/
def regOffset : Reg → Nat
  | .cmd => 0x000
  | .status => 0x004
  | .width => 0x008
  | .height => 0x00C
  | .payloadLen => 0x010
  | .keyLen => 0x014
  | .maxRecovery => 0x018
  | .recovLen => 0x01C
  | .foundLen => 0x020
  | .capacity => 0x024
  | .id => 0x028
  | .keySize => 0x02C
  | .dataSize => 0x030
  | .pixSize => 0x034

/-- The register at an offset; none is a reserved offset (R20, R35). -/
def regAt (off : Nat) : Option Reg :=
  [Reg.cmd, .status, .width, .height, .payloadLen, .keyLen, .maxRecovery, .recovLen, .foundLen, .capacity, .id,
    .keySize, .dataSize, .pixSize].find? fun r => regOffset r == off

/-- ID's constant: "LCX" and interface revision 1 (R34). -/
def idValue : Word := 0x4C435801

/-- What a register read returns, with no side effect (R22–R35, R69). -/
def State.readReg (s : State) : Option Reg → Word
  | none => 0
  | some .cmd => 0
  | some .status => s.status.toWord
  | some .width => s.width.setWidth 32
  | some .height => s.height.setWidth 32
  | some .payloadLen => s.payloadLen
  | some .keyLen => s.keyLen
  | some .maxRecovery => s.maxRecovery
  | some .recovLen => s.recovLen
  | some .foundLen => s.foundLen
  | some .capacity => s.width.setWidth 32 * s.height.setWidth 32
  | some .id => idValue
  | some .keySize => BitVec.ofNat 32 s.params.keyBytes
  | some .dataSize => BitVec.ofNat 32 s.params.dataBytes
  | some .pixSize => BitVec.ofNat 32 s.params.maxPixels

/-- Acceptance of the command word `c`, all of R50 in one step, and the draw of its latency (log entry 2). -/
def State.accept (s : State) (c : Word) : State :=
  { s with
    snap := ⟨c, s.width, s.height, s.payloadLen, s.keyLen, s.maxRecovery⟩
    status := s.status.accepted
    recovLen := 0
    foundLen := 0
    phase := .busy
    wait := Config.latency s.params.lcxBase s.nonce
    nonce := s.nonce + 1 }

/-- A write that BUSY drops: only OVR is set (R36). -/
def State.overrun (s : State) : State := { s with status := s.status.overrun }

/-- A write of a configuration register: `t` when idle, dropped while busy (R25–R29, R36). -/
def State.configure (s t : State) : State := if s.status.busy then s.overrun else t

/-- What a register write does (R22–R36). Writes of read-only registers and of reserved offsets are ignored. -/
def State.writeReg (s : State) (r : Option Reg) (v : Word) : State :=
  match r with
  | none => s
  | some .cmd => s.configure (s.accept v)
  | some .status => { s with status := s.status.w1c v }
  | some .width => s.configure { s with width := v.setWidth 16 }
  | some .height => s.configure { s with height := v.setWidth 16 }
  | some .payloadLen => s.configure { s with payloadLen := v }
  | some .keyLen => s.configure { s with keyLen := v }
  | some .maxRecovery => s.configure { s with maxRecovery := v }
  | some .recovLen => s
  | some .foundLen => s
  | some .capacity => s
  | some .id => s
  | some .keySize => s
  | some .dataSize => s
  | some .pixSize => s

/-! ### The end of a command -/

/-- `raise Error(e)`: the abort. It writes ERR, BUSY, DONE and the phase, and nothing else (R203). -/
def State.abort (s : State) (e : ErrCode) : State :=
  { s with status := s.status.completed e, phase := .idle }

/-- `done()`: the normal end of a command (R204). -/
def State.finish (s : State) : State :=
  { s with status := s.status.completed .none, phase := .idle }

/-- The hidden registers after a command has used them hold unspecified values (R52): the next free value, log entry 4. -/
def State.usedDatapath (s : State) : State :=
  { s with datapath := Config.datapathAfter s.params.lcxBase s.nonce, nonce := s.nonce + 1 }

/-! ### The reset input -/

/-- Reset, at any time (R240, I7). What is not LCX's (the parameters, the host and its log, the free-value counter)
stays (log entry 13). -/
def State.hwReset (s : State) : State :=
  { State.resetWith s.params with host := s.host, readLog := s.readLog, nonce := s.nonce }

/-- A value reaches the host (R67, R69). -/
def State.logRead (s : State) (v : Word) : State := { s with readLog := v :: s.readLog }

/-- Go on with the bytes read, or fault with UNINIT_READ where one of them is unwritten (R13, R71). -/
def needBytes (o : Option (List Byte)) (k : List Byte → Host.Outcome State Fault Refusal) :
    Host.Outcome State Fault Refusal :=
  match o with
  | none => .fault .uninitRead
  | some bs => k bs

end Sys2Proof.Machine
end

