-- ==== Sys2Proof/Machine/Operands.lean ====
section
/-! DEFINITION. Every operand a command reads comes from the snapshot and the buffers (30_encoding.md rule R91): the
lengths, the byte runs, and the validation checks on them (60_exceptions.md rules R200–R202). -/

namespace Sys2Proof.Machine

/-! ### The snapshot's numbers -/

/-- `S.W · S.H`, the capacity of the image in bits, exact (R141, R142). -/
def State.cap (s : State) : Nat := s.snap.w.toNat * s.snap.h.toNat

/-- `S.N`. -/
def State.lenN (s : State) : Nat := s.snap.n.toNat

/-- `S.K`. -/
def State.lenK (s : State) : Nat := s.snap.k.toNat

/-- `S.M`. -/
def State.lenM (s : State) : Nat := s.snap.m.toNat

/-- `nbits = min(8·S.M, S.W·S.H)`, the pixels RECOVER and EXTRACT read (R146, R162). -/
def State.nbits (s : State) : Nat := min (8 * s.lenM) s.cap

/-- `R = nbits div 8`, the bytes they recover (R146, R162). -/
def State.recovered (s : State) : Nat := s.nbits / 8

/-! ### The checks, each the code it raises -/

/-- DIM_RANGE when `S.W · S.H > MAX_PIXELS` (R200). -/
def State.checkDim (s : State) : Option ErrCode :=
  if s.cap > s.params.maxPixels then some .dimRange else none

/-- LEN_RANGE when `S.N > DATA_BYTES` (R200). -/
def State.checkN (s : State) : Option ErrCode :=
  if s.lenN > s.params.dataBytes then some .lenRange else none

/-- LEN_RANGE when `S.K > KEY_BYTES` (R200). -/
def State.checkK (s : State) : Option ErrCode :=
  if s.lenK > s.params.keyBytes then some .lenRange else none

/-- LEN_RANGE when `S.M > DATA_BYTES` (R200). -/
def State.checkM (s : State) : Option ErrCode :=
  if s.lenM > s.params.dataBytes then some .lenRange else none

/-- CAPACITY_EXCEEDED when `n` bytes do not fit: `8·n > S.W · S.H`, on exact naturals (R142, R200). -/
def State.checkCapacity (s : State) (n : Nat) : Option ErrCode :=
  if 8 * n > s.cap then some .capacityExceeded else none

/-- The first check that fails, in the order given (R201). -/
def firstError : List (Option ErrCode) → Option ErrCode
  | [] => none
  | some e :: _ => some e
  | none :: rest => firstError rest

/-- Validation before mutation (R53, R203): abort with the first failing check, else go on. -/
def validated (checks : List (Option ErrCode)) (s : State) (body : Host.Outcome State Fault Refusal) :
    Host.Outcome State Fault Refusal :=
  match firstError checks with
  | some e => .next (s.abort e)
  | none => body

/-! ### The bytes a command reads -/

/-- DATA[0:n]. -/
def State.dataBytes (s : State) (n : Nat) : Option (List Byte) := s.mem.readEvery 1 (dataAddr 0) n

/-- The key bytes that ciphering `n` bytes reads: KEY[i mod S.K] for i < n, that is KEY[0 : min(n, S.K)]
(R125; log entry 20). None is read when S.K = 0. -/
def State.keyBytes (s : State) (n : Nat) : Option (List Byte) := s.mem.readEvery 1 (keyAddr 0) (min n s.lenK)

/-- Blue(0), …, Blue(n − 1), in traversal order (R140, R44). -/
def State.blueBytes (s : State) (n : Nat) : Option (List Byte) := s.mem.readEvery pixBytes (blueAddr 0) n

/-! ### The bytes a command writes -/

/-- DATA[0 : bs.length] <- bs. -/
def State.writeData (s : State) (bs : List Byte) : State :=
  { s with mem := Memory.writeEvery 1 s.mem (dataAddr 0) bs }

/-- Blue(0), …, Blue(bs.length − 1) <- bs. -/
def State.writeBlue (s : State) (bs : List Byte) : State :=
  { s with mem := Memory.writeEvery pixBytes s.mem (blueAddr 0) bs }

end Sys2Proof.Machine
end

