-- ==== Sys2Proof/Machine/BitCodec.lean ====
section
/-! DEFINITION. The bit codec (40_bit_codec.md) and the channel bit of a blue byte (43_channel.md rules R143, R144). -/

namespace Sys2Proof.Machine

/-- Bit t of a byte sequence's stream: `d[t div 8][7 − (t mod 8)]` (R110). -/
def bitAt (d : List Byte) (t : Nat) : Bool := (d.getD (t / 8) 0).getLsbD (7 - t % 8)

/-- `bytes_to_bits`, most significant bit first (R110). -/
def bytesToBits (d : List Byte) : List Bool := (List.range (8 * d.length)).map (bitAt d)

/-- Byte i of a bit sequence: the sum of `b[8i + j] << (7 − j)` over j in 0..7 (R111). -/
def byteAt (b : List Bool) (i : Nat) : Byte :=
  BitVec.ofNat 8 ((List.range 8).map fun j => (b.getD (8 * i + j) false).toNat * 2 ^ (7 - j)).sum

/-- `bits_to_bytes`; a trailing group shorter than 8 is dropped (R111). -/
def bitsToBytes (b : List Bool) : List Byte := (List.range (b.length / 8)).map (byteAt b)

/-- Bit insertion: `(v and 0xFE) or b` (R143). -/
def insertBit (v : Byte) (b : Bool) : Byte := (v &&& 0xFE) ||| (BitVec.ofBool b).setWidth 8

/-- Bit extraction: `v and 0x01` (R144). -/
def channelBit (v : Byte) : Bool := (v &&& 0x01) == 1

/-- The clear pass on one byte: `v and 0xFE` (R147). -/
def clearBit (v : Byte) : Byte := v &&& 0xFE

end Sys2Proof.Machine
end

