-- ==== Sys2Proof/Machine/Cipher.lean ====
section
/-! DEFINITION. The stream cipher and CIPHER (41_cipher.md). -/

namespace Sys2Proof.Machine

/-- `apply(d, k)`: XOR with the key repeated from d[0]; the empty key is the identity (R120). -/
def applyKey (d k : List Byte) : List Byte :=
  if k.length = 0 then d
  else (List.range d.length).map fun i => d.getD i 0 ^^^ k.getD (i % k.length) 0

/-- The effect of CIPHER after its checks (R125): with an empty key, DATA is neither read nor written. -/
def cipherData (s : State) : Host.Outcome State Fault Refusal :=
  if s.lenK = 0 then .next s.finish
  else
    needBytes (s.dataBytes s.lenN) fun d =>
    needBytes (s.keyBytes s.lenN) fun k =>
    .next (s.writeData (applyKey d k)).usedDatapath.finish

/-- CIPHER (R125). -/
def execCipher (s : State) : Host.Outcome State Fault Refusal :=
  validated [s.checkN, s.checkK] s (cipherData s)

end Sys2Proof.Machine
end

