-- ==== Sys2Proof/Machine/Framer.lean ====
section
/-! DEFINITION. The payload framer (42_framer.md). -/

namespace Sys2Proof.Machine

/-- SENTINEL, the ASCII text "$STOP$" (R130). -/
def sentinel : List Byte := [0x24, 0x53, 0x54, 0x4F, 0x50, 0x24]

/-- `frame(p, k) = apply(p, k) ++ SENTINEL` (R131). -/
def frame (p k : List Byte) : List Byte := applyKey p k ++ sentinel

/-- `s[L : L+6] = SENTINEL`. -/
def sentinelAt (s : List Byte) (L : Nat) : Bool := (s.drop L).take sentinel.length == sentinel

/-- `find`: the least L with `L + 6 ≤ len(s)` and the sentinel at L (R132). -/
def findSentinel (s : List Byte) : Option Nat := (List.range (s.length + 1 - sentinel.length)).find? (sentinelAt s)

/-- What `unframe` answers (R133). -/
inductive Unframed where
  | notFound
  | found (p : List Byte) (L : Nat)
  deriving DecidableEq, Repr

/-- `unframe(s, k)` (R133). -/
def unframe (s k : List Byte) : Unframed :=
  match findSentinel s with
  | none => .notFound
  | some L => .found (applyKey (s.take L) k) L

end Sys2Proof.Machine
end

