-- ==== Sys2Proof/Machine/Channel.lean ====
section
/-! DEFINITION. The LSB channel codec: EMBED, RECOVER and CLEAR (43_channel.md). -/

namespace Sys2Proof.Machine

/-- The pixel indices of a traversal of a `w` by `h` image, in order: y outer, x inner, from the top left (R140). The
commands visit them as 0, 1, 2, …; an obligation says that is this order. -/
def traversal (w h : Nat) : List Nat :=
  (List.range h).flatMap fun y => (List.range w).map fun x => pixelIndex w x y

/-- Write the bits of `bs`, most significant first, into the blue LSBs of pixels 0 .. 8·len − 1 (R140, R143, R145). The
blue bytes are read to keep their bits [7:1]. -/
def embedBytes (bs : List Byte) (s : State) : Host.Outcome State Fault Refusal :=
  needBytes (s.blueBytes (8 * bs.length)) fun v =>
  .next (s.writeBlue (List.zipWith insertBit v (bytesToBits bs))).usedDatapath.finish

/-- EMBED (R145). -/
def execEmbed (s : State) : Host.Outcome State Fault Refusal :=
  validated [s.checkDim, s.checkN, s.checkCapacity s.lenN] s
    (needBytes (s.dataBytes s.lenN) fun d => embedBytes d s)

/-- Read the channel bits of the recovery window and assemble them into bytes (R111, R144, R146). All `nbits` pixels are
read, the last `nbits mod 8` bits are dropped. -/
def recoverBytes (s : State) (k : List Byte → Host.Outcome State Fault Refusal) : Host.Outcome State Fault Refusal :=
  needBytes (s.blueBytes s.nbits) fun v => k (bitsToBytes (v.map channelBit))

/-- The bytes recovered become DATA[0:R] and R becomes RECOV_LEN (R146, R162). -/
def State.writeRecovered (s : State) (bs : List Byte) : State :=
  { s.writeData bs with recovLen := BitVec.ofNat 32 bs.length }

/-- RECOVER (R146). -/
def execRecover (s : State) : Host.Outcome State Fault Refusal :=
  validated [s.checkDim, s.checkM] s
    (recoverBytes s fun bs => .next (s.writeRecovered bs).usedDatapath.finish)

/-- CLEAR (R147). -/
def execClear (s : State) : Host.Outcome State Fault Refusal :=
  validated [s.checkDim] s
    (needBytes (s.blueBytes s.cap) fun v => .next (s.writeBlue (v.map clearBit)).usedDatapath.finish)

end Sys2Proof.Machine
end

