-- ==== Sys2Proof/Machine/HideExtract.lean ====
section
/-! DEFINITION. NOP, HIDE and EXTRACT (44_hide_extract.md). -/

namespace Sys2Proof.Machine

/-- NOP: complete with no effect (R160). -/
def execNop (s : State) : Host.Outcome State Fault Refusal := .next s.finish

/-- HIDE: cipher, frame, check capacity, embed; DATA and KEY are not written (R161). -/
def execHide (s : State) : Host.Outcome State Fault Refusal :=
  validated [s.checkDim, s.checkN, s.checkK, s.checkCapacity (s.lenN + sentinel.length)] s
    (needBytes (s.dataBytes s.lenN) fun d =>
     needBytes (s.keyBytes s.lenN) fun k =>
     embedBytes (frame d k) s)

/-- STATUS.RESULT <- FOUND and FOUND_LEN <- L, or STATUS.RESULT <- NOT_FOUND (R162). -/
def State.writeResult (s : State) : Option Nat → State
  | none => { s with status := { s.status with result := .notFound } }
  | some L => { s with status := { s.status with result := .found }, foundLen := BitVec.ofNat 32 L }

/-- What EXTRACT does with the recovered bytes `bs` (R162): raw when there is no sentinel, else the prefix deciphered and
the rest raw. -/
def extractBytes (s : State) (bs : List Byte) : Host.Outcome State Fault Refusal :=
  match findSentinel bs with
  | none => .next ((s.writeRecovered bs).writeResult none).usedDatapath.finish
  | some L =>
    needBytes (s.keyBytes L) fun k =>
    .next ((s.writeRecovered (applyKey (bs.take L) k ++ bs.drop L)).writeResult (some L)).usedDatapath.finish

/-- EXTRACT (R162). -/
def execExtract (s : State) : Host.Outcome State Fault Refusal :=
  validated [s.checkDim, s.checkK, s.checkM] s (recoverBytes s (extractBytes s))

end Sys2Proof.Machine
end

