-- ==== Sys2Proof/Machine/Dispatch.lean ====
section
/-! DEFINITION. One arm per command: the completion step of each (10_state.md rule R51). -/

namespace Sys2Proof.Machine

def exec (i : Instr) (s : State) : Host.Outcome State Fault Refusal :=
  match i with
  | .nop => Sys2Proof.Machine.execNop s
  | .cipher => Sys2Proof.Machine.execCipher s
  | .embed => Sys2Proof.Machine.execEmbed s
  | .recover => Sys2Proof.Machine.execRecover s
  | .clear => Sys2Proof.Machine.execClear s
  | .hide => Sys2Proof.Machine.execHide s
  | .extract => Sys2Proof.Machine.execExtract s

end Sys2Proof.Machine
end

