-- ==== Sys2Proof/Machine/Engine.lean ====
section
/-! DEFINITION. The engine's one step (10_state.md rule R51). -/

namespace Sys2Proof.Machine

/-- *complete*: decode the accepted word and perform the command's whole effect, or abort it with ILLEGAL_CMD
(R51, R93, R200). -/
def complete (s : State) : Host.Outcome State Fault Refusal :=
  match decodeWord s.snap.cmd with
  | .cmd i => exec i s
  | .illegal _ => .next (s.abort .illegalCmd)

/-- The word stored where the engine takes its next command: accepted from the host, and its completion due now
(R50; log entry 14). -/
def State.acceptNow (s : State) (c : Word) : State := { s.accept c with wait := 0 }

end Sys2Proof.Machine
end

