-- ==== Sys2Proof/Machine/HostBus.lean ====
section
/-! DEFINITION. The host's moves: bus reads and writes through the address map (20_memory.md rules R60–R70), WAIT
(30_encoding.md rule R97), and the reset input (70_reset_and_hazards.md rule R240). -/

namespace Sys2Proof.Machine

/-- What an access reaches (R61, R62, R69). -/
inductive Target where
  /-- A register, or a reserved offset (R35). -/
  | reg (r : Option Reg)
  /-- The valid part of KEY, DATA or PIX. -/
  | buffer
  /-- A bus error. -/
  | error
  deriving DecidableEq, Repr

/-- The `n` bytes at `a` all lie in the `len` bytes at `base` (R62). -/
def insidePart (base len a n : Nat) : Bool := decide (base ≤ a) && decide (a + n ≤ base + len)

/-- The `n` bytes at `a` all lie in one buffer's valid part (R61, R62). -/
def insideBuffer (p : Params) (a n : Nat) : Bool :=
  insidePart keyBase p.keyBytes a n || insidePart dataBase p.dataBytes a n ||
    insidePart pixBase (pixBytes * p.maxPixels) a n

/-- The address map and its bus errors: a misaligned access, an access of the wrong size in REG, an access outside every
valid part (R61, R62, R66, R69). -/
def target (p : Params) (a n : Nat) : Target :=
  if a % n ≠ 0 then .error
  else if a < keyBase then (if n = 4 then .reg (regAt a) else .error)
  else if insideBuffer p a n then .buffer
  else .error

/-- A host read. Log entries 10 and 11 give the model faults and their order. -/
def hostRead (a : Word) (size : AccessSize) (s : State) : Host.Outcome State Fault Refusal :=
  match target s.params a.toNat size.bytes with
  | .error => .fault (.hostBusErr 0)
  | .reg r => .next (s.logRead (s.readReg r))
  | .buffer =>
    if s.status.busy then .fault .busyHazard
    else needBytes (s.mem.readEvery 1 a.toNat size.bytes) fun bs => .next (s.logRead (leWord bs))

/-- A host write. -/
def hostWrite (a : Word) (size : AccessSize) (v : Word) (s : State) : Host.Outcome State Fault Refusal :=
  match target s.params a.toNat size.bytes with
  | .error => .fault (.hostBusErr 0)
  | .reg r => .next (s.writeReg r v)
  | .buffer =>
    if s.status.busy then .fault .busyHazard
    else .next { s with mem := Memory.writeEvery 1 s.mem a.toNat (leBytes size.bytes v) }

/-- One read of WAIT: the loop goes on while the value read has BUSY = 1 (R97). -/
def hostPoll (s : State) : Host.Outcome State Fault Refusal :=
  if s.status.busy then .next { s.logRead s.status.toWord with host := .poll :: s.host }
  else .next (s.logRead s.status.toWord)

/-- One move of the host. -/
def hostOp (op : HostOp) (s : State) : Host.Outcome State Fault Refusal :=
  match op with
  | .read a size => hostRead a size s
  | .write a size v => hostWrite a size v s
  | .poll => hostPoll s
  | .reset => .next s.hwReset

/-- The host takes its oldest pending transaction (R72). With none, nothing happens (log entry 17). -/
def hostMove (s : State) : Host.Outcome State Fault Refusal :=
  match s.host with
  | [] => .next s
  | op :: rest => hostOp op { s with host := rest }

/-- A move of the host passes while the engine is busy (R51; log entry 2). -/
def State.tick (s : State) : State :=
  match s.phase with
  | .idle => s
  | .busy => { s with wait := s.wait - 1 }

end Sys2Proof.Machine
end

