-- ==== Sys2Proof/Machine/Step.lean ====
section
/-! DEFINITION. One step of LCX and its host: a busy engine whose latency has passed completes; otherwise the host makes
its next move (00_scope.md rule R15, 10_state.md rule R51, 60_exceptions.md rule R210). -/

namespace Sys2Proof.Machine

/-- The step. -/
def step (s : State) : Host.Outcome State Fault Refusal :=
  match s.phase, s.wait with
  | .busy, 0 => complete s
  | .busy, _ + 1 => hostMove s.tick
  | .idle, _ => hostMove s

/-- `s` with the command whose bits are `w` accepted and due, so that the next step decodes and runs it. -/
def State.withFetchWord (s : State) (nbits w : Nat) : State := s.acceptNow (BitVec.ofNat 32 (w % 2 ^ nbits))

end Sys2Proof.Machine
end

