-- ==== Sys2Proof/Machine/Datapath.lean ====
section
/-! DEFINITION. The hardware forms of the datapath over its hidden registers (10_state.md rules R39, R52): the serializer
and deserializer of 40_bit_codec.md rule R114, the XOR engine of 41_cipher.md rule R124 and the sliding-window search of
42_framer.md rule R136. The spec says each is the same function as the rule the commands use; obligations say so here. -/

namespace Sys2Proof.Machine

/-- The start of a traversal or of a ciphered sequence: every register is initialized (R39, R124, R240). -/
def datapathStart : Datapath := ⟨0, 0, 0, 0, 0, [], none⟩

/-- One stream position of the serializer: the bit `7 − j` of byte i, then j and i step and the cursor moves to the next
pixel (R39, R114). -/
def serialStep (src : List Byte) (dp : Datapath) : Bool × Datapath :=
  ((src.getD dp.byteIdx 0).getLsbD (7 - dp.bitPos),
    if dp.bitPos = 7 then { dp with cursor := dp.cursor + 1, bitPos := 0, byteIdx := dp.byteIdx + 1 }
    else { dp with cursor := dp.cursor + 1, bitPos := dp.bitPos + 1 })

/-- `n` positions of the serializer. -/
def serialRun (src : List Byte) : Nat → Datapath → List Bool × Datapath
  | 0, dp => ([], dp)
  | n + 1, dp =>
    let r := serialStep src dp
    let rest := serialRun src n r.2
    (r.1 :: rest.1, rest.2)

/-- One bit into the deserializer: `acc <- ((acc << 1) | b) and 0xFF`, `c <- c + 1`, and at 8 the byte is emitted and
both are cleared (R114). -/
def deserialStep (dp : Datapath) (b : Bool) : Option Byte × Datapath :=
  let acc := (dp.acc <<< 1) ||| (BitVec.ofBool b).setWidth 8
  if dp.bitPos + 1 = 8 then
    (some acc, { dp with cursor := dp.cursor + 1, acc := 0, bitPos := 0, byteIdx := dp.byteIdx + 1 })
  else (none, { dp with cursor := dp.cursor + 1, acc := acc, bitPos := dp.bitPos + 1 })

/-- The deserializer on a bit sequence: the bytes it emits. A partial accumulator at the end is never emitted (R114). -/
def deserialRun (dp : Datapath) : List Bool → List Byte
  | [] => []
  | b :: bs =>
    match deserialStep dp b with
    | (some e, dp') => e :: deserialRun dp' bs
    | (none, dp') => deserialRun dp' bs

/-- One byte through the XOR engine: XOR with the key byte at ki, then ki steps and returns to 0 at K; with an empty key
the byte passes through (R124). -/
def xorStep (k : List Byte) (dp : Datapath) (b : Byte) : Byte × Datapath :=
  if k.length = 0 then (b, { dp with byteIdx := dp.byteIdx + 1 })
  else (b ^^^ k.getD dp.keyIdx 0,
    { dp with byteIdx := dp.byteIdx + 1, keyIdx := if dp.keyIdx + 1 = k.length then 0 else dp.keyIdx + 1 })

/-- The XOR engine on a byte sequence (R124). -/
def xorRun (k : List Byte) (dp : Datapath) : List Byte → List Byte
  | [] => []
  | b :: bs => (xorStep k dp b).1 :: xorRun k (xorStep k dp b).2 bs

/-- One recovered byte into the search: the window slides to the last six bytes, and the first match is kept (R136). -/
def searchStep (dp : Datapath) (b : Byte) : Datapath :=
  let window := (dp.window ++ [b]).drop (dp.window.length + 1 - sentinel.length)
  { dp with
    byteIdx := dp.byteIdx + 1
    window := window
    hit := if dp.hit = none ∧ window = sentinel then some (dp.byteIdx + 1 - sentinel.length) else dp.hit }

/-- The search over the recovered bytes: where the window first held the sentinel (R136). -/
def searchRun (bs : List Byte) : Option Nat := (bs.foldl searchStep datapathStart).hit

end Sys2Proof.Machine
end

