-- ==== Sys2Proof/Machine/HostProgram.lean ====
section
/-! DEFINITION. The host-program notation (30_encoding.md rules R96–R98): each statement is one host transaction, each
pseudo-statement its expansion. -/

namespace Sys2Proof.Machine

/-- The base of a buffer's window (R61). -/
def bufBase : Buf → Nat
  | .key => keyBase
  | .data => dataBase
  | .pix => pixBase

/-- `<buf>+<i>` as a bus offset (R96): the base of R61 plus i, which `bufOffset_toNat` gives where the sum is below 2^32.
DESIGN CHOICE, unsafe (log entry 26): no rule says what the statement means where the sum fits no 32-bit address (R60);
the model takes the sum mod 2^32, so `PIX+0xFF000000` is offset 0. No obligation rests on it. -/
def bufOffset (b : Buf) (i : Nat) : Word := BitVec.ofNat 32 (bufBase b + i)

/-- A register name as a bus offset: REG_BASE is 0 (R61, R96). -/
def regWord (r : Reg) : Word := BitVec.ofNat 32 (regOffset r)

/-- `WR <reg>, <v>` (R96). -/
def stWR (r : Reg) (v : Word) : HostOp := .write (regWord r) .word v

/-- `RD <reg>` (R96). -/
def stRD (r : Reg) : HostOp := .read (regWord r) .word

/-- `WB <buf>+<i>, <v>` (R96). -/
def stWB (b : Buf) (i : Nat) (v : Byte) : HostOp := .write (bufOffset b i) .byte (v.setWidth 32)

/-- `WH <buf>+<i>, <v>` (R96). -/
def stWH (b : Buf) (i : Nat) (v : BitVec 16) : HostOp := .write (bufOffset b i) .half (v.setWidth 32)

/-- `WW <buf>+<i>, <v>` (R96). -/
def stWW (b : Buf) (i : Nat) (v : Word) : HostOp := .write (bufOffset b i) .word v

/-- `RB <buf>+<i>` (R96). -/
def stRB (b : Buf) (i : Nat) : HostOp := .read (bufOffset b i) .byte

/-- `RW <buf>+<i>` (R96). -/
def stRW (b : Buf) (i : Nat) : HostOp := .read (bufOffset b i) .word

/-- `CMD <mnemonic>` is `WR CMD, <word>` (R97). -/
def stCMD (i : Instr) : HostOp := stWR .cmd (encode i)

/-- `WAIT` (R97). -/
def stWAIT : HostOp := .poll

/-- `CLRST` is `WR STATUS, 0x00000006` (R97). -/
def stCLRST : HostOp := stWR .status 0x00000006

/-- `LOAD <buf>+<i>, b0 b1 …`: one byte write per listed byte, in order (R97). -/
def stLOAD (b : Buf) : Nat → List Byte → List HostOp
  | _, [] => []
  | i, v :: vs => stWB b i v :: stLOAD b (i + 1) vs

/-- `LOADS <buf>+<i>, "text"`: LOAD of the text's ASCII bytes (R97), whose characters are 0x20 to 0x7E in the spec.
DESIGN CHOICE, unsafe (log entry 26): a character above 0xFF gives the low 8 bits of its code. -/
def stLOADS (b : Buf) (i : Nat) (text : String) : List HostOp :=
  stLOAD b i (text.toList.map fun c => BitVec.ofNat 8 c.toNat)

/-- The word of a pixel: `r | g<<8 | b<<16 | a<<24` (R64, R97). -/
def pixelWord (r g b a : Byte) : Word := leWord [r, g, b, a]

/-- `FILLPIX n, r, g, b, a`: a word write for each pixel p in 0..n−1 (R97). -/
def stFILLPIX (n : Nat) (r g b a : Byte) : List HostOp :=
  (List.range n).map fun p => stWW .pix (4 * p) (pixelWord r g b a)

/-- A command's mnemonic, in capitals (R98). -/
def mnemonic : Instr → String
  | .nop => "NOP"
  | .cipher => "CIPHER"
  | .embed => "EMBED"
  | .recover => "RECOVER"
  | .clear => "CLEAR"
  | .hide => "HIDE"
  | .extract => "EXTRACT"

/-- The command a mnemonic names, if it names one (R98). -/
def ofMnemonic (m : String) : Option Instr :=
  [Instr.nop, .cipher, .embed, .recover, .clear, .hide, .extract].find? fun i => mnemonic i == m

/-- The host goes on with `ops` after what it has pending (R72). -/
def State.submit (s : State) (ops : List HostOp) : State := { s with host := s.host ++ ops }

end Sys2Proof.Machine
end

