-- ==== Sys2Proof/Machine/Instances.lean ====
section
/-! DEFINITION. Several LCX, each at its own LCX_BASE: independent copies that share no state (60_exceptions.md rule R217). -/

namespace Sys2Proof.Machine

/-- Instance `i` takes its step and the others keep their states; with no such instance nothing happens. The spec leaves
each instance's completion time open and relates no two: the latencies of instances at different LCX_BASE are different
free values, and R217 puts no two at one. That two copies at one LCX_BASE and one count would draw the same value is the
model's choice, log entry 22. -/
def stepInstance (ss : List State) (i : Nat) : Host.Outcome (List State) Fault Refusal :=
  match ss[i]? with
  | none => .next ss
  | some s =>
    match step s with
    | .next t => .next (ss.set i t)
    | .fault f => .fault f
    | .refused r => .refused r

end Sys2Proof.Machine
end

