-- ==== Sys2Proof/Safety.lean ====
section
/-! DEFINITION. The terms claims are stated in: what a command needs, what a completion leaves, and the invariant of the
machine. -/

namespace Sys2Proof.Machine

/-! ### What a command needs -/

/-- `S.W · S.H ≤ MAX_PIXELS`: DIM_RANGE is not raised (R200). -/
abbrev State.DimOk (s : State) : Prop := s.cap ≤ s.params.maxPixels

/-- `S.N ≤ DATA_BYTES` (R28, R200). -/
abbrev State.NOk (s : State) : Prop := s.lenN ≤ s.params.dataBytes

/-- `S.K ≤ KEY_BYTES` (R29, R200). -/
abbrev State.KOk (s : State) : Prop := s.lenK ≤ s.params.keyBytes

/-- `S.M ≤ DATA_BYTES` (R27, R200). -/
abbrev State.MOk (s : State) : Prop := s.lenM ≤ s.params.dataBytes

/-- DATA[0:n] is written (R13). -/
abbrev State.DataWritten (s : State) (n : Nat) : Prop := ∀ i < n, s.data i ≠ none

/-- KEY[0:n] is written (R13). -/
abbrev State.KeyWritten (s : State) (n : Nat) : Prop := ∀ i < n, s.key i ≠ none

/-- Blue(0), …, Blue(n − 1) are written (R13). -/
abbrev State.BlueWritten (s : State) (n : Nat) : Prop := ∀ p < n, s.blue p ≠ none

/-- `d` is DATA[0:N]. -/
abbrev State.DataIs (s : State) (d : List Byte) : Prop :=
  d.length = s.lenN ∧ ∀ i < s.lenN, s.data i = some (d.getD i 0)

/-- `k` has the length of the key, and its first `n` bytes are KEY's: all that ciphering `n` bytes reads (R125). -/
abbrev State.KeyIs (s : State) (k : List Byte) (n : Nat) : Prop :=
  k.length = s.lenK ∧ ∀ i < min n s.lenK, s.key i = some (k.getD i 0)

/-- `bs` is what the channel bits of the recovery window spell, most significant bit first (R111, R144). -/
abbrev State.WindowSpells (s : State) (bs : List Byte) : Prop :=
  bs.length = s.recovered ∧
    ∀ i < s.recovered, ∀ j < 8, (s.blue (8 * i + j)).map (·.getLsbD 0) = some ((bs.getD i 0).getLsbD (7 - j))

/-! ### What a completion leaves -/

/-- The state after a command that ends normally with memory `m` and has used the datapath: ERR = NONE, BUSY falls, DONE
rises, IDLE; the hidden registers are the next free value; everything else is as it was (R51, R204). -/
def State.completes (s : State) (m : Memory) : State :=
  { s with
    mem := m
    status := { s.status with busy := false, done := true, err := .none }
    phase := .idle
    datapath := Config.datapathAfter s.params.lcxBase s.nonce
    nonce := s.nonce + 1 }

/-- The state after a command that ends with code `e` and does nothing else: an abort (R203), and with NONE a command
that has no effect (R160, R204). Only ERR, BUSY, DONE and the phase are written. -/
def State.endsWith (s : State) (e : ErrCode) : State :=
  { s with
    status := { s.status with busy := false, done := true, err := e }
    phase := .idle }

/-- `m` reads as `s`'s memory everywhere but at the offsets `stored` (a frame of memory). -/
abbrev State.ReadsAsBut (s : State) (m : Memory) (stored : Nat → Prop) : Prop :=
  ∀ a, ¬ stored a → m.read a = s.mem.read a

/-- The offsets of DATA[0:n]. -/
abbrev inData (n a : Nat) : Prop := ∃ i < n, a = dataAddr i

/-- The offsets of Blue(0), …, Blue(n − 1). -/
abbrev inBlue (n a : Nat) : Prop := ∃ p < n, a = blueAddr p

/-! ### The host's turn -/

/-- The next step is the host's: the engine is idle, or busy with its latency not yet passed (R51, R210). -/
abbrev State.HostTurn (s : State) : Prop := s.phase = .idle ∨ 0 < s.wait

/-- The next step is the engine's completion (R51). -/
abbrev State.EngineTurn (s : State) : Prop := s.phase = .busy ∧ s.wait = 0

/-! ### The invariant -/

/-- What every step keeps. -/
structure State.Inv (s : State) : Prop where
  /-- The configuration is legal (R8). -/
  legal : s.params.Legal
  /-- Memory is in its canonical form. -/
  memWf : s.mem.wf = true
  /-- Only bytes of the valid parts of KEY, DATA and PIX are held (R61, R62). -/
  memParts : ∀ c ∈ s.mem, insideBuffer s.params c.1 1 = true
  /-- The phase and STATUS.BUSY agree (R50, R51). -/
  phaseBusy : s.phase = .busy ↔ s.status.busy = true
  /-- While busy, DONE, ERR, RESULT, RECOV_LEN and FOUND_LEN are clear (R245, R50). -/
  busyClear : s.phase = .busy →
    s.status.done = false ∧ s.status.err = .none ∧ s.status.result = .none ∧ s.recovLen = 0 ∧ s.foundLen = 0
  /-- While busy, the snapshot and the live registers agree (R50). -/
  busySnap : s.phase = .busy →
    s.snap.w = s.width ∧ s.snap.h = s.height ∧ s.snap.n = s.payloadLen ∧ s.snap.k = s.keyLen ∧
      s.snap.m = s.maxRecovery
  /-- A failed command leaves no result (R203). -/
  errClear : s.status.err ≠ .none → s.status.result = .none ∧ s.recovLen = 0
  /-- FOUND_LEN is 0 unless RESULT = FOUND (R31). -/
  foundClear : s.status.result ≠ .found → s.foundLen = 0
  /-- A found sentinel lies inside the recovered bytes (R132, R162). -/
  foundFits : s.status.result = .found → s.foundLen.toNat + 6 ≤ s.recovLen.toNat
  /-- The recovered bytes fit DATA (R27, R30). -/
  recovFits : s.recovLen.toNat ≤ s.params.dataBytes

end Sys2Proof.Machine
end

