-- ==== Sys2Proof/Certificates/Slice0/Obligations.lean ====
section
/-! DEFINITION. The statements for the provers, each from the spec's rules. -/

open Sys2Proof Sys2Proof.Machine

/-! ### Encoding -/

/-- R92: the words of the opcode map, bit by bit, and the neighbours that R93 and 2.6 of 95_test_vectors.md refuse. -/
def Obligations.OpcodeMapWordsDecode : Prop :=
  decodeWord 0b00000000000000000000000000000000#32 = .cmd .nop ∧
  decodeWord 0b00000000000000000000000000000001#32 = .cmd .cipher ∧
  decodeWord 0b00000000000000000000000000000010#32 = .cmd .embed ∧
  decodeWord 0b00000000000000000000000000000011#32 = .cmd .recover ∧
  decodeWord 0b00000000000000000000000000000100#32 = .cmd .clear ∧
  decodeWord 0b00000000000000000000000000000101#32 = .cmd .hide ∧
  decodeWord 0b00000000000000000000000000000110#32 = .cmd .extract ∧
  decodeWord 0b00000000000000000000000000000111#32 = .illegal .opReserved ∧
  decodeWord 0b00000000000000000000000000010000#32 = .illegal .rsvdNonzero ∧
  decodeWord 0b10000000000000000000000000000010#32 = .illegal .rsvdNonzero

/-- R94: decoding is total and exact. RSVD, c[31:4], not 0 is illegal whatever OP, c[3:0], holds; otherwise OP names the
command, and 0x7..0xF none (R93). -/
def Obligations.DecodeIsTotalAndExact : Prop :=
  ∀ c : Word,
    (c.toNat / 16 ≠ 0 → decodeWord c = .illegal .rsvdNonzero) ∧
    (c.toNat / 16 = 0 →
      (c.toNat % 16 = 0 → decodeWord c = .cmd .nop) ∧ (c.toNat % 16 = 1 → decodeWord c = .cmd .cipher) ∧
      (c.toNat % 16 = 2 → decodeWord c = .cmd .embed) ∧ (c.toNat % 16 = 3 → decodeWord c = .cmd .recover) ∧
      (c.toNat % 16 = 4 → decodeWord c = .cmd .clear) ∧ (c.toNat % 16 = 5 → decodeWord c = .cmd .hide) ∧
      (c.toNat % 16 = 6 → decodeWord c = .cmd .extract) ∧
      (7 ≤ c.toNat % 16 → decodeWord c = .illegal .opReserved)) ∧
    (∀ i : Instr, decodeWord c = .cmd i ↔ c = encode i)

/-- R64, R90, R95: the bytes that decode to a command are its word's four bytes in the bus's order, no more and no less. -/
def Obligations.DecodeEncodeBytesAgree : Prop :=
  ∀ (bs rest : List Byte) (i : Instr),
    decodeBytes bs = .word (.cmd i) rest ↔ bs = encodeBytes i ++ rest

/-! ### The datapath's functions -/

/-- R110: the length of the stream and each of its bits, most significant bit first. -/
def Obligations.BytesToBitsMsbFirst : Prop :=
  ∀ d : List Byte, (bytesToBits d).length = 8 * d.length ∧
    ∀ i j, i < d.length → j < 8 → (bytesToBits d)[8 * i + j]? = some ((d.getD i 0).getLsbD (7 - j))

/-- R111: the number of bytes, each byte's bits, and so the drop of the last m mod 8 bits. -/
def Obligations.BitsToBytesDropsPartialGroup : Prop :=
  ∀ b : List Bool, (bitsToBytes b).length = b.length / 8 ∧
    ∀ i j, i < b.length / 8 → j < 8 → ((bitsToBytes b).getD i 0).getLsbD (7 - j) = b.getD (8 * i + j) false

/-- R112: the round-trip law. -/
def Obligations.BitCodecRoundTrip : Prop :=
  ∀ x : List Byte, bitsToBytes (bytesToBits x) = x

/-- R120: the length and each byte of `apply`, and the empty key. -/
def Obligations.ApplyIsRepeatingXor : Prop :=
  ∀ d k : List Byte, (k.length = 0 → applyKey d k = d) ∧
    (0 < k.length → (applyKey d k).length = d.length ∧
      ∀ i < d.length, (applyKey d k)[i]? = some (d.getD i 0 ^^^ k.getD (i % k.length) 0))

/-- R121: the involution law, for any key, including the empty one. R122: a prefix is ciphered as it is within the whole
sequence. -/
def Obligations.ApplyInvolutionAndPrefix : Prop :=
  ∀ x k : List Byte, applyKey (applyKey x k) k = x ∧ applyKey x [] = x ∧
    ∀ L : Nat, (applyKey x k).take L = applyKey (x.take L) k

/-- R131, R130: the framed stream is the ciphered payload and then the six sentinel bytes; its bits number 8(N + 6). -/
def Obligations.FrameAppendsSentinel : Prop :=
  ∀ p k : List Byte, frame p k = applyKey p k ++ [0x24, 0x53, 0x54, 0x4F, 0x50, 0x24] ∧
    (frame p k).length = p.length + 6 ∧ (bytesToBits (frame p k)).length = 8 * (p.length + 6)

/-- R132: `find` answers L exactly when L is the least position of the sentinel, and none exactly when there is none. -/
def Obligations.FindIsLeastSentinel : Prop :=
  ∀ s : List Byte,
    (∀ L, findSentinel s = some L ↔
      (L + 6 ≤ s.length ∧ (s.drop L).take 6 = [0x24, 0x53, 0x54, 0x4F, 0x50, 0x24]) ∧
      ∀ L' < L, (s.drop L').take 6 ≠ [0x24, 0x53, 0x54, 0x4F, 0x50, 0x24]) ∧
    (findSentinel s = none ↔ ∀ L, L + 6 ≤ s.length → (s.drop L).take 6 ≠ [0x24, 0x53, 0x54, 0x4F, 0x50, 0x24])

/-- R114: the serializer's registers emit the stream of R110, one pixel a bit, and the deserializer's accumulator and
count emit the bytes of R111. -/
def Obligations.CodecHardwareFormsAgree : Prop :=
  (∀ d : List Byte, (serialRun d (8 * d.length) datapathStart).1 = bytesToBits d ∧
    (serialRun d (8 * d.length) datapathStart).2.cursor = 8 * d.length) ∧
  ∀ b : List Bool, deserialRun datapathStart b = bitsToBytes b

/-- R124: the XOR engine with its key-index counter is `apply`. -/
def Obligations.XorEngineIsApply : Prop :=
  ∀ d k : List Byte, xorRun k datapathStart d = applyKey d k

/-- R136: the sliding window finds what `find` finds. -/
def Obligations.WindowSearchIsFind : Prop :=
  ∀ s : List Byte, searchRun s = findSentinel s

/-- R140: row-major order from the top left is increasing pixel index, and index p is column p mod W, row p div W. -/
def Obligations.TraversalIsIndexOrder : Prop :=
  ∀ w h : Nat, traversal w h = List.range (w * h) ∧
    ∀ p < w * h, pixelIndex w (p % w) (p / w) = p ∧ p % w < w ∧ p / w < h

/-! ### The commands' results

In `completes` the hidden registers take the next free value and its counter steps: the model's choice, log entry 4. The
statements hold whatever that value is. -/

/-- R160: NOP completes and changes only BUSY, DONE, ERR and the phase (the hidden registers too stay, the model's choice,
log entry 24). -/
def Obligations.NopCompletesWithoutEffect : Prop :=
  ∀ s : State, exec .nop s = .next (s.endsWith .none)

/-- R125: CIPHER with a key XORs DATA[0:N] with the repeated key, and stores nothing else; with K = 0 it is the identity
and reads nothing, so that DATA need not be written. -/
def Obligations.CipherXorsData : Prop :=
  ∀ s : State, s.NOk → s.KOk →
    (0 < s.lenK → s.DataWritten s.lenN → s.KeyWritten (min s.lenN s.lenK) →
      ∃ m, exec .cipher s = .next (s.completes m) ∧
        (∀ i < s.lenN, ∃ d k, s.data i = some d ∧ s.key (i % s.lenK) = some k ∧
          m.read (dataAddr i) = some (d ^^^ k)) ∧
        s.ReadsAsBut m (inData s.lenN)) ∧
    (s.lenK = 0 → exec .cipher s = .next (s.endsWith .none))

/-- R145: EMBED puts bit t of DATA[0:N] into the blue LSB of pixel t and stores nothing else. -/
def Obligations.EmbedWritesBits : Prop :=
  ∀ s : State, s.DimOk → s.NOk → 8 * s.lenN ≤ s.cap → s.DataWritten s.lenN → s.BlueWritten (8 * s.lenN) →
    ∃ m, exec .embed s = .next (s.completes m) ∧
      (∀ t < 8 * s.lenN, ∃ v d, s.blue t = some v ∧ s.data (t / 8) = some d ∧
        m.read (blueAddr t) = some ((v &&& 0xFE) ||| ((d >>> (7 - t % 8)) &&& 1))) ∧
      s.ReadsAsBut m (inBlue (8 * s.lenN))

/-- R146: RECOVER assembles R bytes from the blue LSBs into DATA[0:R], reports R, and stores nothing else. -/
def Obligations.RecoverReadsBits : Prop :=
  ∀ s : State, s.DimOk → s.MOk → s.BlueWritten s.nbits →
    ∃ m, exec .recover s = .next { s.completes m with recovLen := BitVec.ofNat 32 s.recovered } ∧
      (∀ i < s.recovered, ∃ b, m.read (dataAddr i) = some b ∧
        ∀ j < 8, ∃ v, s.blue (8 * i + j) = some v ∧ b.getLsbD (7 - j) = v.getLsbD 0) ∧
      s.ReadsAsBut m (inData s.recovered)

/-- R147: CLEAR zeroes the blue LSB of every pixel of the image and stores nothing else. -/
def Obligations.ClearZeroesEveryLsb : Prop :=
  ∀ s : State, s.DimOk → s.BlueWritten s.cap →
    ∃ m, exec .clear s = .next (s.completes m) ∧
      (∀ p < s.cap, ∃ v, s.blue p = some v ∧ m.read (blueAddr p) = some (v &&& 0xFE)) ∧
      s.ReadsAsBut m (inBlue s.cap)

/-- R161: HIDE puts bit t of the framed, ciphered payload into the blue LSB of pixel t and stores nothing else. -/
def Obligations.HideWritesFramedBits : Prop :=
  ∀ (s : State) (d k : List Byte), s.DimOk → s.NOk → s.KOk → 8 * (s.lenN + 6) ≤ s.cap →
    s.DataIs d → s.KeyIs k s.lenN → s.BlueWritten (8 * (s.lenN + 6)) →
    ∃ m, exec .hide s = .next (s.completes m) ∧
      (∀ t < 8 * (s.lenN + 6), ∃ v, s.blue t = some v ∧
        m.read (blueAddr t) =
          some ((v &&& 0xFE) ||| (((applyKey d k ++ sentinel).getD (t / 8) 0 >>> (7 - t % 8)) &&& 1))) ∧
      s.ReadsAsBut m (inBlue (8 * (s.lenN + 6)))

/-- R162, the sentinel found at L: RESULT = FOUND, FOUND_LEN = L, RECOV_LEN = R, DATA[0:L] deciphered, DATA[L:R] raw, and
nothing else stored. -/
def Obligations.ExtractFoundDeciphers : Prop :=
  ∀ (s : State) (bs k : List Byte) (L : Nat), s.DimOk → s.KOk → s.MOk → s.BlueWritten s.nbits →
    s.WindowSpells bs → findSentinel bs = some L → s.KeyIs k L →
    ∃ m, exec .extract s = .next { s.completes m with
        status := { s.status with busy := false, done := true, err := .none, result := .found }
        recovLen := BitVec.ofNat 32 s.recovered
        foundLen := BitVec.ofNat 32 L } ∧
      (∀ i < L, m.read (dataAddr i) = (applyKey (bs.take L) k)[i]?) ∧
      (∀ i < s.recovered, L ≤ i → m.read (dataAddr i) = bs[i]?) ∧
      s.ReadsAsBut m (inData s.recovered)

/-- R162, no sentinel: RESULT = NOT_FOUND, RECOV_LEN = R, FOUND_LEN as acceptance left it, DATA[0:R] raw, and nothing else
stored. No key byte is read. -/
def Obligations.ExtractNotFoundKeepsRaw : Prop :=
  ∀ (s : State) (bs : List Byte), s.DimOk → s.KOk → s.MOk → s.BlueWritten s.nbits →
    s.WindowSpells bs → findSentinel bs = none →
    ∃ m, exec .extract s = .next { s.completes m with
        status := { s.status with busy := false, done := true, err := .none, result := .notFound }
        recovLen := BitVec.ofNat 32 s.recovered } ∧
      (∀ i < s.recovered, m.read (dataAddr i) = bs[i]?) ∧
      s.ReadsAsBut m (inData s.recovered)

/-! ### Aborts

An abort leaves the hidden registers as they were: the model's choice, log entry 24. -/

/-- R200, R201, R203: DIM_RANGE comes first of the checks of the five commands that use the image. -/
def Obligations.DimRangeAborts : Prop :=
  ∀ (s : State) (i : Instr), i ∈ [Instr.embed, .recover, .clear, .hide, .extract] → ¬ s.DimOk →
    exec i s = .next (s.endsWith .dimRange)

/-- R200–R203: LEN_RANGE, for the lengths each command uses, after DIM_RANGE. -/
def Obligations.LenRangeAborts : Prop :=
  ∀ s : State,
    (¬ s.NOk ∨ ¬ s.KOk → exec .cipher s = .next (s.endsWith .lenRange)) ∧
    (s.DimOk → ¬ s.NOk → exec .embed s = .next (s.endsWith .lenRange)) ∧
    (s.DimOk → ¬ s.MOk → exec .recover s = .next (s.endsWith .lenRange)) ∧
    (s.DimOk → ¬ s.NOk ∨ ¬ s.KOk → exec .hide s = .next (s.endsWith .lenRange)) ∧
    (s.DimOk → ¬ s.KOk ∨ ¬ s.MOk → exec .extract s = .next (s.endsWith .lenRange))

/-- R150, R163, R200–R203: one bit too many fails with CAPACITY_EXCEEDED, the last check, and changes no pixel. -/
def Obligations.CapacityExceededAborts : Prop :=
  ∀ s : State, s.DimOk → s.NOk →
    (s.cap < 8 * s.lenN → exec .embed s = .next (s.endsWith .capacityExceeded)) ∧
    (s.KOk → s.cap < 8 * (s.lenN + 6) → exec .hide s = .next (s.endsWith .capacityExceeded))

/-- R93, R200: an illegal word is accepted and completes with ILLEGAL_CMD, whatever the registers hold. -/
def Obligations.IllegalWordAborts : Prop :=
  ∀ s : State, s.EngineTurn → 16 ≤ s.snap.cmd.toNat ∨ 7 ≤ s.snap.cmd.toNat % 16 →
    step s = .next (s.endsWith .illegalCmd)

/-- R53, R208: no command is refused, and UNINIT_READ is the only way one stops. -/
def Obligations.OnlyUninitReadStopsACommand : Prop :=
  ∀ (i : Instr) (s : State), (∃ t, exec i s = .next t) ∨ exec i s = .fault .uninitRead

/-- R13, R71: a command that passes its checks and must read a byte nothing has written stops with UNINIT_READ (with no
effect, the model's choice, log entry 23). EXTRACT reads the blue bytes of its window and, when it finds the sentinel at L,
the key bytes that deciphering L bytes needs (R162). -/
def Obligations.UninitReadStopsCommands : Prop :=
  ∀ s : State,
    (s.NOk → s.KOk → 0 < s.lenK → ¬ s.DataWritten s.lenN ∨ ¬ s.KeyWritten (min s.lenN s.lenK) →
      exec .cipher s = .fault .uninitRead) ∧
    (s.DimOk → s.NOk → 8 * s.lenN ≤ s.cap → ¬ s.DataWritten s.lenN ∨ ¬ s.BlueWritten (8 * s.lenN) →
      exec .embed s = .fault .uninitRead) ∧
    (s.DimOk → s.MOk → ¬ s.BlueWritten s.nbits → exec .recover s = .fault .uninitRead) ∧
    (s.DimOk → ¬ s.BlueWritten s.cap → exec .clear s = .fault .uninitRead) ∧
    (s.DimOk → s.NOk → s.KOk → 8 * (s.lenN + 6) ≤ s.cap →
      ¬ s.DataWritten s.lenN ∨ ¬ s.KeyWritten (min s.lenN s.lenK) ∨ ¬ s.BlueWritten (8 * (s.lenN + 6)) →
      exec .hide s = .fault .uninitRead) ∧
    (s.DimOk → s.KOk → s.MOk → ¬ s.BlueWritten s.nbits → exec .extract s = .fault .uninitRead) ∧
    ∀ (bs : List Byte) (L : Nat), s.DimOk → s.KOk → s.MOk → s.BlueWritten s.nbits → s.WindowSpells bs →
      findSentinel bs = some L → ¬ s.KeyWritten (min L s.lenK) → exec .extract s = .fault .uninitRead

/-! ### Frames and whole-machine rules -/

/-- R37, R51, R205: whatever a command does, it leaves the configuration registers, OVR, the snapshot, the parameters and
the host alone, and it ends IDLE with BUSY = 0 and DONE = 1. Only RECOVER and EXTRACT change RECOV_LEN (R30), only EXTRACT
changes RESULT and FOUND_LEN (R31). -/
def Obligations.CommandsKeepRegisters : Prop :=
  ∀ (i : Instr) (s t : State), exec i s = .next t →
    (t.status.busy = false ∧ t.status.done = true ∧ t.phase = .idle) ∧
    (t.params = s.params ∧ t.width = s.width ∧ t.height = s.height ∧ t.payloadLen = s.payloadLen ∧
      t.keyLen = s.keyLen ∧ t.maxRecovery = s.maxRecovery) ∧
    (t.status.ovr = s.status.ovr ∧ t.snap = s.snap ∧ t.host = s.host ∧ t.readLog = s.readLog ∧ t.wait = s.wait) ∧
    (i ≠ .recover → i ≠ .extract → t.recovLen = s.recovLen) ∧
    (i ≠ .extract → t.status.result = s.status.result ∧ t.foundLen = s.foundLen)

/-- R71, R91: the bytes each command may store to. -/
def Obligations.CommandsStoreOnlyTheirBytes : Prop :=
  ∀ (s t : State),
    (exec .nop s = .next t → s.ReadsAsBut t.mem fun _ => False) ∧
    (exec .cipher s = .next t → s.ReadsAsBut t.mem (inData s.lenN)) ∧
    (exec .embed s = .next t → s.ReadsAsBut t.mem (inBlue (8 * s.lenN))) ∧
    (exec .recover s = .next t → s.ReadsAsBut t.mem (inData s.recovered)) ∧
    (exec .clear s = .next t → s.ReadsAsBut t.mem (inBlue s.cap)) ∧
    (exec .hide s = .next t → s.ReadsAsBut t.mem (inBlue (8 * (s.lenN + 6)))) ∧
    (exec .extract s = .next t → s.ReadsAsBut t.mem (inData s.recovered))

/-- R151, R45: on a legal configuration no command changes the R, G or A byte of any pixel or bits [7:1] of any blue byte,
and none unwrites a byte. -/
def Obligations.OnlyBlueLsbsEverChange : Prop :=
  ∀ (i : Instr) (s t : State), s.params.Legal → exec i s = .next t →
    ∀ p, (∀ c < 4, c ≠ 2 → t.pix (4 * p + c) = s.pix (4 * p + c)) ∧
      (t.blue p).map (· &&& 0xFE) = (s.blue p).map (· &&& 0xFE)

/-- R41, R42, R151, R161: KEY is never written; HIDE, EMBED and CLEAR leave DATA alone; CIPHER, RECOVER and EXTRACT leave
PIX alone. -/
def Obligations.BuffersWrittenOnlyByTheirCommands : Prop :=
  ∀ (i : Instr) (s t : State), s.params.Legal → exec i s = .next t →
    (∀ j < s.params.keyBytes, t.key j = s.key j) ∧
    (i ∈ [Instr.nop, .embed, .clear, .hide] → ∀ j < s.params.dataBytes, t.data j = s.data j) ∧
    (i ∈ [Instr.nop, .cipher, .recover, .extract] → ∀ j, t.pix j = s.pix j)

/-- R46, I15: the R, G and A bytes never matter. Two states that differ only there get outcomes that differ only there; that
their hidden registers take the same free value is the model's choice, log entry 4. -/
def Obligations.OtherChannelsNeverMatter : Prop :=
  ∀ (i : Instr) (s : State) (m : Memory), s.params.Legal →
    (∀ a, (a < pixBase ∨ (a - pixBase) % 4 = 2) → m.read a = s.mem.read a) →
    (exec i s = .fault .uninitRead ↔ exec i { s with mem := m } = .fault .uninitRead) ∧
    ∀ t, exec i s = .next t → ∃ m', exec i { s with mem := m } = .next { t with mem := m' } ∧
      ∀ a, (a < pixBase ∨ (a - pixBase) % 4 = 2) → m'.read a = t.mem.read a

/-! ### Laws of the channel and end to end -/

/-- R148: a second CLEAR changes nothing more; R168: nor does a second EMBED or HIDE. -/
def Obligations.ImageCommandsIdempotent : Prop :=
  ∀ (i : Instr) (s t u : State), s.params.Legal → i ∈ [Instr.clear, .embed, .hide] →
    exec i s = .next t → exec i t = .next u → ∀ a, u.mem.read a = t.mem.read a

/-- R121, R125: CIPHER twice with the same KEY and lengths restores DATA. -/
def Obligations.CipherTwiceRestores : Prop :=
  ∀ s t u : State, s.params.Legal → exec .cipher s = .next t → exec .cipher t = .next u →
    ∀ a, u.mem.read a = s.mem.read a

/-- R149: after EMBED of N bytes, RECOVER with M ≥ N, the same W and H and those pixels' blue bytes recovers them. -/
def Obligations.EmbedRecoverSymmetry : Prop :=
  ∀ s t u : State, s.params.Legal → s.DimOk → s.NOk → 8 * s.lenN ≤ s.cap → exec .embed s = .next t →
    u.params = s.params → u.snap.w = s.snap.w → u.snap.h = s.snap.h → (∀ q < 8 * s.lenN, u.blue q = t.blue q) →
    s.lenN ≤ u.lenM → u.MOk → u.BlueWritten u.nbits →
    ∃ v, exec .recover u = .next v ∧ v.status.err = .none ∧ ∀ i < s.lenN, v.data i = s.data i

/-- R164: hide/extract symmetry, with all its premises. Between the two commands the parameters, W, H, K, KEY[0:K] and the
blue bytes HIDE wrote stay; anything else may change. -/
def Obligations.HideExtractSymmetry : Prop :=
  ∀ (s : State) (p k : List Byte), s.params.Legal → s.DimOk → s.NOk → s.KOk → 8 * (s.lenN + 6) ≤ s.cap →
    s.DataIs p → s.KeyIs k s.lenN → findSentinel (frame p k) = some s.lenN → s.BlueWritten (8 * (s.lenN + 6)) →
    ∃ t, exec .hide s = .next t ∧ t.status.err = .none ∧
      ∀ u : State, u.params = s.params → u.snap.w = s.snap.w → u.snap.h = s.snap.h → u.snap.k = s.snap.k →
        (∀ j < s.lenK, u.key j = t.key j) → (∀ q < 8 * (s.lenN + 6), u.blue q = t.blue q) →
        s.lenN + 6 ≤ u.lenM → u.MOk → u.BlueWritten u.nbits →
        ∃ v, exec .extract u = .next v ∧ v.status.err = .none ∧ v.status.result = .found ∧
          v.foundLen.toNat = s.lenN ∧ ∀ i < s.lenN, v.data i = some (p.getD i 0)

/-- R165: the recovery bound limits the payload: with M < N + 6 EXTRACT answers NOT_FOUND. -/
def Obligations.ShortWindowNotFound : Prop :=
  ∀ (s t u : State) (p k : List Byte), s.params.Legal → s.DimOk → s.NOk → s.KOk → 8 * (s.lenN + 6) ≤ s.cap →
    s.DataIs p → s.KeyIs k s.lenN → findSentinel (frame p k) = some s.lenN → exec .hide s = .next t →
    u.params = s.params → u.snap.w = s.snap.w → u.snap.h = s.snap.h → (∀ q < 8 * (s.lenN + 6), u.blue q = t.blue q) →
    u.lenM < s.lenN + 6 → u.MOk → u.KOk →
    ∃ v, exec .extract u = .next v ∧ v.status.err = .none ∧ v.status.result = .notFound

/-- R166: with another key EXTRACT still finds the sentinel at N, and DATA[i] is p[i] xor kb(i) xor k'b(i). -/
def Obligations.WrongKeyGivesXorOfKeys : Prop :=
  ∀ (s t u : State) (p k k' : List Byte), s.params.Legal → s.DimOk → s.NOk → s.KOk → 8 * (s.lenN + 6) ≤ s.cap →
    s.DataIs p → s.KeyIs k s.lenN → findSentinel (frame p k) = some s.lenN → exec .hide s = .next t →
    u.params = s.params → u.snap.w = s.snap.w → u.snap.h = s.snap.h → (∀ q < 8 * (s.lenN + 6), u.blue q = t.blue q) →
    s.lenN + 6 ≤ u.lenM → u.MOk → u.KOk → u.KeyIs k' s.lenN → u.BlueWritten u.nbits →
    ∃ v, exec .extract u = .next v ∧ v.status.err = .none ∧ v.status.result = .found ∧
      v.foundLen.toNat = s.lenN ∧
      ∀ i < s.lenN, v.data i = some (p.getD i 0 ^^^ k.getD (i % k.length) 0 ^^^ k'.getD (i % k'.length) 0)

/-- R167, R148: after CLEAR every recovered byte is 0x00, so RECOVER gives zeros and EXTRACT answers NOT_FOUND. -/
def Obligations.ClearDefeatsExtract : Prop :=
  ∀ s t u : State, s.DimOk → exec .clear s = .next t →
    u.params = s.params → u.snap.w = s.snap.w → u.snap.h = s.snap.h → (∀ q < s.cap, u.blue q = t.blue q) →
    u.MOk →
    (∃ v, exec .recover u = .next v ∧ ∀ i < u.recovered, v.data i = some 0) ∧
    (u.KOk → ∃ v, exec .extract u = .next v ∧ v.status.err = .none ∧ v.status.result = .notFound ∧
      ∀ i < u.recovered, v.data i = some 0)

/-! ### Registers

The host's pending transactions, its log of values read (log entry 1) and the tick of the latency while busy (log entry 2)
are the model's. -/

/-- R20–R35: where each register stands, that the offsets from 0x038 hold none, and what each register reads. CAPACITY is
the exact product and never overflows (R32). -/
def Obligations.RegisterReadValues : Prop :=
  ∀ s : State,
    s.readReg (some .cmd) = 0 ∧ s.readReg (some .status) = s.status.toWord ∧
    (s.readReg (some .width)).toNat = s.width.toNat ∧ (s.readReg (some .height)).toNat = s.height.toNat ∧
    s.readReg (some .payloadLen) = s.payloadLen ∧ s.readReg (some .keyLen) = s.keyLen ∧
    s.readReg (some .maxRecovery) = s.maxRecovery ∧ s.readReg (some .recovLen) = s.recovLen ∧
    s.readReg (some .foundLen) = s.foundLen ∧
    (s.readReg (some .capacity)).toNat = s.width.toNat * s.height.toNat ∧
    s.readReg (some .id) = 0x4C435801#32 ∧
    (s.params.Legal → (s.readReg (some .keySize)).toNat = s.params.keyBytes ∧
      (s.readReg (some .dataSize)).toNat = s.params.dataBytes ∧
      (s.readReg (some .pixSize)).toNat = s.params.maxPixels) ∧
    s.readReg none = 0 ∧
    (regAt 0x000 = some .cmd ∧ regAt 0x004 = some .status ∧ regAt 0x008 = some .width ∧ regAt 0x00C = some .height ∧
      regAt 0x010 = some .payloadLen ∧ regAt 0x014 = some .keyLen ∧ regAt 0x018 = some .maxRecovery ∧
      regAt 0x01C = some .recovLen ∧ regAt 0x020 = some .foundLen ∧ regAt 0x024 = some .capacity ∧
      regAt 0x028 = some .id ∧ regAt 0x02C = some .keySize ∧ regAt 0x030 = some .dataSize ∧ regAt 0x034 = some .pixSize) ∧
    ∀ a, 0x038 ≤ a → regAt a = none

/-- R23, R200: the bits of the STATUS word. -/
def Obligations.StatusWordLayout : Prop :=
  ∀ st : Status,
    st.toWord.getLsbD 0 = st.busy ∧ st.toWord.getLsbD 1 = st.done ∧ st.toWord.getLsbD 2 = st.ovr ∧
    st.toWord.getLsbD 3 = false ∧
    (st.toWord.extractLsb 7 4).toNat = (match st.err with
      | .none => 0 | .illegalCmd => 1 | .dimRange => 2 | .lenRange => 3 | .capacityExceeded => 4) ∧
    (st.toWord.extractLsb 9 8).toNat = (match st.result with | .none => 0 | .found => 1 | .notFound => 2) ∧
    ∀ i, 10 ≤ i → st.toWord.getLsbD i = false

/-- R69, R70, R245: a host read of a register, or of a reserved offset, at any turn of the host returns its value and
changes nothing else of LCX. -/
def Obligations.HostReadsRegister : Prop :=
  ∀ (s : State) (a : Word) (rest : List HostOp), s.HostTurn → a.toNat % 4 = 0 → a.toNat < 0x1000 →
    s.host = .read a .word :: rest →
    step s = .next { s.tick with host := rest, readLog := s.readReg (regAt a.toNat) :: s.readLog }

/-- R25–R29: an idle host write of a configuration register stores its bits and nothing else; bits [31:16] of WIDTH and
HEIGHT are reserved. -/
def Obligations.HostWritesConfiguration : Prop :=
  ∀ (s : State) (v : Word) (rest : List HostOp), s.phase = .idle → s.status.busy = false →
    (s.host = .write 0x008 .word v :: rest → step s = .next { s with host := rest, width := v.setWidth 16 }) ∧
    (s.host = .write 0x00C .word v :: rest → step s = .next { s with host := rest, height := v.setWidth 16 }) ∧
    (s.host = .write 0x010 .word v :: rest → step s = .next { s with host := rest, payloadLen := v }) ∧
    (s.host = .write 0x014 .word v :: rest → step s = .next { s with host := rest, keyLen := v }) ∧
    (s.host = .write 0x018 .word v :: rest → step s = .next { s with host := rest, maxRecovery := v })

/-- R36: while busy, a write of CMD or of a configuration register is dropped and sets OVR. -/
def Obligations.WritesWhileBusyDropped : Prop :=
  ∀ (s : State) (a v : Word) (rest : List HostOp), s.HostTurn → s.status.busy = true →
    a ∈ [(0x000 : Word), 0x008, 0x00C, 0x010, 0x014, 0x018] → s.host = .write a .word v :: rest →
    step s = .next { s.tick with host := rest, status := { s.status with ovr := true } }

/-- R24: a STATUS write clears DONE and OVR where its bits 1 and 2 are 1, in both phases, and nothing else. -/
def Obligations.StatusWriteOneToClear : Prop :=
  ∀ (s : State) (v : Word) (rest : List HostOp), s.HostTurn → s.host = .write 0x004 .word v :: rest →
    step s = .next { s.tick with
      host := rest
      status := { s.status with
        done := if v.getLsbD 1 then false else s.status.done
        ovr := if v.getLsbD 2 then false else s.status.ovr } }

/-- R30–R35: writes of read-only registers and of reserved offsets are ignored, in both phases, and do not set OVR. -/
def Obligations.ReadOnlyWritesIgnored : Prop :=
  ∀ (s : State) (a v : Word) (rest : List HostOp), s.HostTurn → a.toNat % 4 = 0 → 0x01C ≤ a.toNat → a.toNat < 0x1000 →
    s.host = .write a .word v :: rest → step s = .next { s.tick with host := rest }

/-- R22, R50: an idle CMD write is accepted, whatever the word: the snapshot is taken, BUSY is set, DONE, ERR, RESULT,
RECOV_LEN and FOUND_LEN are cleared, OVR is unchanged. The latency is the next free value, log entry 2. -/
def Obligations.CmdWriteAccepts : Prop :=
  ∀ (s : State) (c : Word) (rest : List HostOp), s.phase = .idle → s.status.busy = false →
    s.host = .write 0x000 .word c :: rest →
    step s = .next { s with
      host := rest
      snap := ⟨c, s.width, s.height, s.payloadLen, s.keyLen, s.maxRecovery⟩
      status := ⟨true, false, s.status.ovr, .none, .none⟩
      recovLen := 0
      foundLen := 0
      phase := .busy
      wait := Config.latency s.params.lcxBase s.nonce
      nonce := s.nonce + 1 }

/-! ### The bus and the buffers -/

/-- R62, R66, R69: a misaligned access, an access of the wrong size in REG and an access outside every valid part get a
bus error, whose read data is 0. That the machine then stops with HOST_BUSERR is R208's and I2's model fault, as log entry
10 reads them; that it comes before the busy hazard is the model's order, log entry 11. -/
def Obligations.BusErrorsStop : Prop :=
  ∀ (s : State) (a v : Word) (n : AccessSize) (rest : List HostOp), s.HostTurn →
    (a.toNat % n.bytes ≠ 0 ∨ (a.toNat < 0x1000 ∧ n ≠ .word) ∨
      (0x1000 ≤ a.toNat ∧
        ¬ (a.toNat + n.bytes ≤ 0x1000 + s.params.keyBytes) ∧
        ¬ (0x10000 ≤ a.toNat ∧ a.toNat + n.bytes ≤ 0x10000 + s.params.dataBytes) ∧
        ¬ (0x1000000 ≤ a.toNat ∧ a.toNat + n.bytes ≤ 0x1000000 + 4 * s.params.maxPixels))) →
    s.host = .read a n :: rest ∨ s.host = .write a n v :: rest →
    step s = .fault (.hostBusErr 0)

/-- R61, R64, R67: an idle read of written bytes of a buffer returns them in little-endian lanes, the other lanes 0, and
changes nothing else; R13: if one of the bytes is unwritten the read is UNINIT_READ. The lanes past the access, and the log
of values read, are the model's, log entries 12 and 1. -/
def Obligations.HostReadsBuffer : Prop :=
  ∀ (s : State) (a : Word) (n : AccessSize) (rest : List HostOp), s.phase = .idle → s.status.busy = false →
    a.toNat % n.bytes = 0 →
    (0x1000 ≤ a.toNat ∧ a.toNat + n.bytes ≤ 0x1000 + s.params.keyBytes) ∨
      (0x10000 ≤ a.toNat ∧ a.toNat + n.bytes ≤ 0x10000 + s.params.dataBytes) ∨
      (0x1000000 ≤ a.toNat ∧ a.toNat + n.bytes ≤ 0x1000000 + 4 * s.params.maxPixels) →
    s.host = .read a n :: rest →
    ((∀ j < n.bytes, s.mem.read (a.toNat + j) ≠ none) →
      ∃ v : Word, step s = .next { s with host := rest, readLog := v :: s.readLog } ∧
        (∀ j < n.bytes, s.mem.read (a.toNat + j) = some ((v >>> (8 * j)).setWidth 8)) ∧
        v.toNat < 2 ^ (8 * n.bytes)) ∧
    ((∃ j < n.bytes, s.mem.read (a.toNat + j) = none) → step s = .fault .uninitRead)

/-- R61, R64, R68: an idle write of a buffer stores the value's bytes in little-endian order and nothing else.
That they come from the low lanes is the model's reading, log entry 12. -/
def Obligations.HostWritesBuffer : Prop :=
  ∀ (s : State) (a v : Word) (n : AccessSize) (rest : List HostOp), s.phase = .idle → s.status.busy = false →
    a.toNat % n.bytes = 0 →
    (0x1000 ≤ a.toNat ∧ a.toNat + n.bytes ≤ 0x1000 + s.params.keyBytes) ∨
      (0x10000 ≤ a.toNat ∧ a.toNat + n.bytes ≤ 0x10000 + s.params.dataBytes) ∨
      (0x1000000 ≤ a.toNat ∧ a.toNat + n.bytes ≤ 0x1000000 + 4 * s.params.maxPixels) →
    s.host = .write a n v :: rest →
    ∃ m : Memory, step s = .next { s with host := rest, mem := m } ∧
      (∀ j < n.bytes, m.read (a.toNat + j) = some ((v >>> (8 * j)).setWidth 8)) ∧
      ∀ b, ¬ (a.toNat ≤ b ∧ b < a.toNat + n.bytes) → m.read b = s.mem.read b

/-- R246: a buffer access while busy is BUSY_HAZARD, whether or not the byte is written (the order is the
model's, log entry 11). -/
def Obligations.BusyBufferAccessStops : Prop :=
  ∀ (s : State) (a v : Word) (n : AccessSize) (rest : List HostOp), s.HostTurn → s.status.busy = true →
    a.toNat % n.bytes = 0 →
    (0x1000 ≤ a.toNat ∧ a.toNat + n.bytes ≤ 0x1000 + s.params.keyBytes) ∨
      (0x10000 ≤ a.toNat ∧ a.toNat + n.bytes ≤ 0x10000 + s.params.dataBytes) ∨
      (0x1000000 ≤ a.toNat ∧ a.toNat + n.bytes ≤ 0x1000000 + 4 * s.params.maxPixels) →
    s.host = .read a n :: rest ∨ s.host = .write a n v :: rest →
    step s = .fault .busyHazard

/-! ### Steps -/

/-- R51, R94: at the engine's turn the step is the meaning of the command the accepted word decodes to. -/
def Obligations.StepRunsDecodedCommand : Prop :=
  ∀ (s : State) (i : Instr), s.EngineTurn → decodeWord s.snap.cmd = .cmd i → step s = exec i s

/-- R97: WAIT reads STATUS once a move, and goes on exactly while the value read has BUSY = 1. That
WAIT is one transaction is the model's choice, log entry 18. -/
def Obligations.WaitPollsUntilIdle : Prop :=
  ∀ (s : State) (rest : List HostOp), s.HostTurn → s.host = .poll :: rest →
    step s = .next { s.tick with
      host := if s.status.busy then .poll :: rest else rest
      readLog := s.status.toWord :: s.readLog }

/-- R51, R97, R251: a busy engine completes, and a host WAIT loop ends. With nothing asked by the host, after the moves its
latency names the engine runs its command from the state it was accepted in. With a WAIT at the head of the host's list
the same happens, each move being a read of STATUS with BUSY = 1; and when the command completes, the next read has
BUSY = 0 and the WAIT is over. The count of moves, and WAIT as one transaction, are the model's, log entries 2 and 18. -/
def Obligations.BusyEngineCompletes : Prop :=
  ∀ s : State, s.phase = .busy →
    (s.host = [] → Host.Core.run Sys2Proof.core (s.wait + 1) s = complete { s with wait := 0 }) ∧
    ∀ rest : List HostOp, s.host = .poll :: rest → s.status.busy = true →
      Host.Core.run Sys2Proof.core (s.wait + 1) s =
        complete { s with wait := 0, readLog := List.replicate s.wait s.status.toWord ++ s.readLog } ∧
      ∀ t, Host.Core.run Sys2Proof.core (s.wait + 1) s = .next t →
        t.status.busy = false ∧
        Host.Core.run Sys2Proof.core (s.wait + 2) s =
          .next { t with host := rest, readLog := t.status.toWord :: t.readLog }

/-- R240, I7: reset at any turn of the host: every register at its reset value, IDLE, every buffer byte unwritten. The
parameters, and what is the host's, stay: log entry 13. -/
def Obligations.ResetAtAnyTime : Prop :=
  ∀ (s : State) (rest : List HostOp), s.HostTurn → s.host = .reset :: rest →
    ∃ t, step s = .next t ∧ t.phase = .idle ∧ t.status.toWord = 0 ∧ t.width = 0 ∧ t.height = 0 ∧ t.payloadLen = 0 ∧
      t.keyLen = 0 ∧ t.maxRecovery = 4096 ∧ t.recovLen = 0 ∧ t.foundLen = 0 ∧ (∀ a, t.mem.read a = none) ∧
      t.params = s.params ∧ t.host = rest ∧ t.readLog = s.readLog

/-- R240: the registers and buffers right after reset, in the reference configuration. -/
def Obligations.ResetRegisterValues : Prop :=
  State.reset.phase = .idle ∧ State.reset.readReg (some .status) = 0 ∧ State.reset.readReg (some .width) = 0 ∧
  State.reset.readReg (some .height) = 0 ∧ State.reset.readReg (some .payloadLen) = 0 ∧
  State.reset.readReg (some .keyLen) = 0 ∧ State.reset.readReg (some .maxRecovery) = 0x1000 ∧
  State.reset.readReg (some .recovLen) = 0 ∧ State.reset.readReg (some .foundLen) = 0 ∧
  State.reset.readReg (some .capacity) = 0 ∧ State.reset.readReg (some .id) = 0x4C435801 ∧
  State.reset.readReg (some .keySize) = 256 ∧ State.reset.readReg (some .dataSize) = 65536 ∧
  State.reset.readReg (some .pixSize) = 4194304 ∧ ∀ a, State.reset.mem.read a = none

/-- The invariant of the machine holds after reset (R8, R50, R240). -/
def Obligations.ResetMeetsInv : Prop := State.Inv State.reset

/-- Every step keeps the invariant, from every state that has it (R36, R50, R51, R203, R245). -/
def Obligations.StepKeepsInv : Prop :=
  ∀ s t : State, State.Inv s → step s = .next t → State.Inv t

/-- R217: an instance's step leaves every other instance as it was. -/
def Obligations.InstancesAreIndependent : Prop :=
  ∀ (ss ts : List State) (i : Nat), stepInstance ss i = .next ts →
    ts.length = ss.length ∧ (∀ j, j ≠ i → ts[j]? = ss[j]?) ∧
      ∀ s, ss[i]? = some s → ∃ t, step s = .next t ∧ ts[i]? = some t
end

