-- ==== Sys2Proof/Laws/State.lean ====
section
/-! SUPPORT. What each named update of the state does to each field: one lemma per field and update, so that no proof
unfolds a record update. -/

namespace Sys2Proof.Machine

/-! ### acceptance (R50) -/

@[simp] theorem State.accept_params (s : State) (c : Word) : (s.accept c).params = s.params := rfl
@[simp] theorem State.accept_status (s : State) (c : Word) : (s.accept c).status = s.status.accepted := rfl
@[simp] theorem State.accept_width (s : State) (c : Word) : (s.accept c).width = s.width := rfl
@[simp] theorem State.accept_height (s : State) (c : Word) : (s.accept c).height = s.height := rfl
@[simp] theorem State.accept_payloadLen (s : State) (c : Word) : (s.accept c).payloadLen = s.payloadLen := rfl
@[simp] theorem State.accept_keyLen (s : State) (c : Word) : (s.accept c).keyLen = s.keyLen := rfl
@[simp] theorem State.accept_maxRecovery (s : State) (c : Word) : (s.accept c).maxRecovery = s.maxRecovery := rfl
@[simp] theorem State.accept_recovLen (s : State) (c : Word) : (s.accept c).recovLen = 0 := rfl
@[simp] theorem State.accept_foundLen (s : State) (c : Word) : (s.accept c).foundLen = 0 := rfl
@[simp] theorem State.accept_phase (s : State) (c : Word) : (s.accept c).phase = .busy := rfl
@[simp] theorem State.accept_snap (s : State) (c : Word) : (s.accept c).snap = ⟨c, s.width, s.height, s.payloadLen, s.keyLen, s.maxRecovery⟩ := rfl
@[simp] theorem State.accept_datapath (s : State) (c : Word) : (s.accept c).datapath = s.datapath := rfl
@[simp] theorem State.accept_mem (s : State) (c : Word) : (s.accept c).mem = s.mem := rfl
@[simp] theorem State.accept_host (s : State) (c : Word) : (s.accept c).host = s.host := rfl
@[simp] theorem State.accept_readLog (s : State) (c : Word) : (s.accept c).readLog = s.readLog := rfl
@[simp] theorem State.accept_wait (s : State) (c : Word) : (s.accept c).wait = Config.latency s.params.lcxBase s.nonce := rfl
@[simp] theorem State.accept_nonce (s : State) (c : Word) : (s.accept c).nonce = s.nonce + 1 := rfl

/-! ### acceptance with the completion due -/

@[simp] theorem State.acceptNow_params (s : State) (c : Word) : (s.acceptNow c).params = s.params := rfl
@[simp] theorem State.acceptNow_status (s : State) (c : Word) : (s.acceptNow c).status = s.status.accepted := rfl
@[simp] theorem State.acceptNow_width (s : State) (c : Word) : (s.acceptNow c).width = s.width := rfl
@[simp] theorem State.acceptNow_height (s : State) (c : Word) : (s.acceptNow c).height = s.height := rfl
@[simp] theorem State.acceptNow_payloadLen (s : State) (c : Word) : (s.acceptNow c).payloadLen = s.payloadLen := rfl
@[simp] theorem State.acceptNow_keyLen (s : State) (c : Word) : (s.acceptNow c).keyLen = s.keyLen := rfl
@[simp] theorem State.acceptNow_maxRecovery (s : State) (c : Word) : (s.acceptNow c).maxRecovery = s.maxRecovery := rfl
@[simp] theorem State.acceptNow_recovLen (s : State) (c : Word) : (s.acceptNow c).recovLen = 0 := rfl
@[simp] theorem State.acceptNow_foundLen (s : State) (c : Word) : (s.acceptNow c).foundLen = 0 := rfl
@[simp] theorem State.acceptNow_phase (s : State) (c : Word) : (s.acceptNow c).phase = .busy := rfl
@[simp] theorem State.acceptNow_snap (s : State) (c : Word) : (s.acceptNow c).snap = ⟨c, s.width, s.height, s.payloadLen, s.keyLen, s.maxRecovery⟩ := rfl
@[simp] theorem State.acceptNow_datapath (s : State) (c : Word) : (s.acceptNow c).datapath = s.datapath := rfl
@[simp] theorem State.acceptNow_mem (s : State) (c : Word) : (s.acceptNow c).mem = s.mem := rfl
@[simp] theorem State.acceptNow_host (s : State) (c : Word) : (s.acceptNow c).host = s.host := rfl
@[simp] theorem State.acceptNow_readLog (s : State) (c : Word) : (s.acceptNow c).readLog = s.readLog := rfl
@[simp] theorem State.acceptNow_wait (s : State) (c : Word) : (s.acceptNow c).wait = 0 := rfl
@[simp] theorem State.acceptNow_nonce (s : State) (c : Word) : (s.acceptNow c).nonce = s.nonce + 1 := rfl

/-! ### a dropped write (R36) -/

@[simp] theorem State.overrun_params (s : State) : (s.overrun).params = s.params := rfl
@[simp] theorem State.overrun_status (s : State) : (s.overrun).status = s.status.overrun := rfl
@[simp] theorem State.overrun_width (s : State) : (s.overrun).width = s.width := rfl
@[simp] theorem State.overrun_height (s : State) : (s.overrun).height = s.height := rfl
@[simp] theorem State.overrun_payloadLen (s : State) : (s.overrun).payloadLen = s.payloadLen := rfl
@[simp] theorem State.overrun_keyLen (s : State) : (s.overrun).keyLen = s.keyLen := rfl
@[simp] theorem State.overrun_maxRecovery (s : State) : (s.overrun).maxRecovery = s.maxRecovery := rfl
@[simp] theorem State.overrun_recovLen (s : State) : (s.overrun).recovLen = s.recovLen := rfl
@[simp] theorem State.overrun_foundLen (s : State) : (s.overrun).foundLen = s.foundLen := rfl
@[simp] theorem State.overrun_phase (s : State) : (s.overrun).phase = s.phase := rfl
@[simp] theorem State.overrun_snap (s : State) : (s.overrun).snap = s.snap := rfl
@[simp] theorem State.overrun_datapath (s : State) : (s.overrun).datapath = s.datapath := rfl
@[simp] theorem State.overrun_mem (s : State) : (s.overrun).mem = s.mem := rfl
@[simp] theorem State.overrun_host (s : State) : (s.overrun).host = s.host := rfl
@[simp] theorem State.overrun_readLog (s : State) : (s.overrun).readLog = s.readLog := rfl
@[simp] theorem State.overrun_wait (s : State) : (s.overrun).wait = s.wait := rfl
@[simp] theorem State.overrun_nonce (s : State) : (s.overrun).nonce = s.nonce := rfl

/-! ### the abort (R203) -/

@[simp] theorem State.abort_params (s : State) (e : ErrCode) : (s.abort e).params = s.params := rfl
@[simp] theorem State.abort_status (s : State) (e : ErrCode) : (s.abort e).status = s.status.completed e := rfl
@[simp] theorem State.abort_width (s : State) (e : ErrCode) : (s.abort e).width = s.width := rfl
@[simp] theorem State.abort_height (s : State) (e : ErrCode) : (s.abort e).height = s.height := rfl
@[simp] theorem State.abort_payloadLen (s : State) (e : ErrCode) : (s.abort e).payloadLen = s.payloadLen := rfl
@[simp] theorem State.abort_keyLen (s : State) (e : ErrCode) : (s.abort e).keyLen = s.keyLen := rfl
@[simp] theorem State.abort_maxRecovery (s : State) (e : ErrCode) : (s.abort e).maxRecovery = s.maxRecovery := rfl
@[simp] theorem State.abort_recovLen (s : State) (e : ErrCode) : (s.abort e).recovLen = s.recovLen := rfl
@[simp] theorem State.abort_foundLen (s : State) (e : ErrCode) : (s.abort e).foundLen = s.foundLen := rfl
@[simp] theorem State.abort_phase (s : State) (e : ErrCode) : (s.abort e).phase = .idle := rfl
@[simp] theorem State.abort_snap (s : State) (e : ErrCode) : (s.abort e).snap = s.snap := rfl
@[simp] theorem State.abort_datapath (s : State) (e : ErrCode) : (s.abort e).datapath = s.datapath := rfl
@[simp] theorem State.abort_mem (s : State) (e : ErrCode) : (s.abort e).mem = s.mem := rfl
@[simp] theorem State.abort_host (s : State) (e : ErrCode) : (s.abort e).host = s.host := rfl
@[simp] theorem State.abort_readLog (s : State) (e : ErrCode) : (s.abort e).readLog = s.readLog := rfl
@[simp] theorem State.abort_wait (s : State) (e : ErrCode) : (s.abort e).wait = s.wait := rfl
@[simp] theorem State.abort_nonce (s : State) (e : ErrCode) : (s.abort e).nonce = s.nonce := rfl

/-! ### the normal end (R204) -/

@[simp] theorem State.finish_params (s : State) : (s.finish).params = s.params := rfl
@[simp] theorem State.finish_status (s : State) : (s.finish).status = s.status.completed .none := rfl
@[simp] theorem State.finish_width (s : State) : (s.finish).width = s.width := rfl
@[simp] theorem State.finish_height (s : State) : (s.finish).height = s.height := rfl
@[simp] theorem State.finish_payloadLen (s : State) : (s.finish).payloadLen = s.payloadLen := rfl
@[simp] theorem State.finish_keyLen (s : State) : (s.finish).keyLen = s.keyLen := rfl
@[simp] theorem State.finish_maxRecovery (s : State) : (s.finish).maxRecovery = s.maxRecovery := rfl
@[simp] theorem State.finish_recovLen (s : State) : (s.finish).recovLen = s.recovLen := rfl
@[simp] theorem State.finish_foundLen (s : State) : (s.finish).foundLen = s.foundLen := rfl
@[simp] theorem State.finish_phase (s : State) : (s.finish).phase = .idle := rfl
@[simp] theorem State.finish_snap (s : State) : (s.finish).snap = s.snap := rfl
@[simp] theorem State.finish_datapath (s : State) : (s.finish).datapath = s.datapath := rfl
@[simp] theorem State.finish_mem (s : State) : (s.finish).mem = s.mem := rfl
@[simp] theorem State.finish_host (s : State) : (s.finish).host = s.host := rfl
@[simp] theorem State.finish_readLog (s : State) : (s.finish).readLog = s.readLog := rfl
@[simp] theorem State.finish_wait (s : State) : (s.finish).wait = s.wait := rfl
@[simp] theorem State.finish_nonce (s : State) : (s.finish).nonce = s.nonce := rfl

/-! ### the hidden registers after use (R52) -/

@[simp] theorem State.usedDatapath_params (s : State) : (s.usedDatapath).params = s.params := rfl
@[simp] theorem State.usedDatapath_status (s : State) : (s.usedDatapath).status = s.status := rfl
@[simp] theorem State.usedDatapath_width (s : State) : (s.usedDatapath).width = s.width := rfl
@[simp] theorem State.usedDatapath_height (s : State) : (s.usedDatapath).height = s.height := rfl
@[simp] theorem State.usedDatapath_payloadLen (s : State) : (s.usedDatapath).payloadLen = s.payloadLen := rfl
@[simp] theorem State.usedDatapath_keyLen (s : State) : (s.usedDatapath).keyLen = s.keyLen := rfl
@[simp] theorem State.usedDatapath_maxRecovery (s : State) : (s.usedDatapath).maxRecovery = s.maxRecovery := rfl
@[simp] theorem State.usedDatapath_recovLen (s : State) : (s.usedDatapath).recovLen = s.recovLen := rfl
@[simp] theorem State.usedDatapath_foundLen (s : State) : (s.usedDatapath).foundLen = s.foundLen := rfl
@[simp] theorem State.usedDatapath_phase (s : State) : (s.usedDatapath).phase = s.phase := rfl
@[simp] theorem State.usedDatapath_snap (s : State) : (s.usedDatapath).snap = s.snap := rfl
@[simp] theorem State.usedDatapath_datapath (s : State) : (s.usedDatapath).datapath = Config.datapathAfter s.params.lcxBase s.nonce := rfl
@[simp] theorem State.usedDatapath_mem (s : State) : (s.usedDatapath).mem = s.mem := rfl
@[simp] theorem State.usedDatapath_host (s : State) : (s.usedDatapath).host = s.host := rfl
@[simp] theorem State.usedDatapath_readLog (s : State) : (s.usedDatapath).readLog = s.readLog := rfl
@[simp] theorem State.usedDatapath_wait (s : State) : (s.usedDatapath).wait = s.wait := rfl
@[simp] theorem State.usedDatapath_nonce (s : State) : (s.usedDatapath).nonce = s.nonce + 1 := rfl

/-! ### a read's answer -/

@[simp] theorem State.logRead_params (s : State) (v : Word) : (s.logRead v).params = s.params := rfl
@[simp] theorem State.logRead_status (s : State) (v : Word) : (s.logRead v).status = s.status := rfl
@[simp] theorem State.logRead_width (s : State) (v : Word) : (s.logRead v).width = s.width := rfl
@[simp] theorem State.logRead_height (s : State) (v : Word) : (s.logRead v).height = s.height := rfl
@[simp] theorem State.logRead_payloadLen (s : State) (v : Word) : (s.logRead v).payloadLen = s.payloadLen := rfl
@[simp] theorem State.logRead_keyLen (s : State) (v : Word) : (s.logRead v).keyLen = s.keyLen := rfl
@[simp] theorem State.logRead_maxRecovery (s : State) (v : Word) : (s.logRead v).maxRecovery = s.maxRecovery := rfl
@[simp] theorem State.logRead_recovLen (s : State) (v : Word) : (s.logRead v).recovLen = s.recovLen := rfl
@[simp] theorem State.logRead_foundLen (s : State) (v : Word) : (s.logRead v).foundLen = s.foundLen := rfl
@[simp] theorem State.logRead_phase (s : State) (v : Word) : (s.logRead v).phase = s.phase := rfl
@[simp] theorem State.logRead_snap (s : State) (v : Word) : (s.logRead v).snap = s.snap := rfl
@[simp] theorem State.logRead_datapath (s : State) (v : Word) : (s.logRead v).datapath = s.datapath := rfl
@[simp] theorem State.logRead_mem (s : State) (v : Word) : (s.logRead v).mem = s.mem := rfl
@[simp] theorem State.logRead_host (s : State) (v : Word) : (s.logRead v).host = s.host := rfl
@[simp] theorem State.logRead_readLog (s : State) (v : Word) : (s.logRead v).readLog = v :: s.readLog := rfl
@[simp] theorem State.logRead_wait (s : State) (v : Word) : (s.logRead v).wait = s.wait := rfl
@[simp] theorem State.logRead_nonce (s : State) (v : Word) : (s.logRead v).nonce = s.nonce := rfl

/-! ### writing DATA -/

@[simp] theorem State.writeData_params (s : State) (bs : List Byte) : (s.writeData bs).params = s.params := rfl
@[simp] theorem State.writeData_status (s : State) (bs : List Byte) : (s.writeData bs).status = s.status := rfl
@[simp] theorem State.writeData_width (s : State) (bs : List Byte) : (s.writeData bs).width = s.width := rfl
@[simp] theorem State.writeData_height (s : State) (bs : List Byte) : (s.writeData bs).height = s.height := rfl
@[simp] theorem State.writeData_payloadLen (s : State) (bs : List Byte) : (s.writeData bs).payloadLen = s.payloadLen := rfl
@[simp] theorem State.writeData_keyLen (s : State) (bs : List Byte) : (s.writeData bs).keyLen = s.keyLen := rfl
@[simp] theorem State.writeData_maxRecovery (s : State) (bs : List Byte) : (s.writeData bs).maxRecovery = s.maxRecovery := rfl
@[simp] theorem State.writeData_recovLen (s : State) (bs : List Byte) : (s.writeData bs).recovLen = s.recovLen := rfl
@[simp] theorem State.writeData_foundLen (s : State) (bs : List Byte) : (s.writeData bs).foundLen = s.foundLen := rfl
@[simp] theorem State.writeData_phase (s : State) (bs : List Byte) : (s.writeData bs).phase = s.phase := rfl
@[simp] theorem State.writeData_snap (s : State) (bs : List Byte) : (s.writeData bs).snap = s.snap := rfl
@[simp] theorem State.writeData_datapath (s : State) (bs : List Byte) : (s.writeData bs).datapath = s.datapath := rfl
@[simp] theorem State.writeData_mem (s : State) (bs : List Byte) : (s.writeData bs).mem = Memory.writeEvery 1 s.mem (dataAddr 0) bs := rfl
@[simp] theorem State.writeData_host (s : State) (bs : List Byte) : (s.writeData bs).host = s.host := rfl
@[simp] theorem State.writeData_readLog (s : State) (bs : List Byte) : (s.writeData bs).readLog = s.readLog := rfl
@[simp] theorem State.writeData_wait (s : State) (bs : List Byte) : (s.writeData bs).wait = s.wait := rfl
@[simp] theorem State.writeData_nonce (s : State) (bs : List Byte) : (s.writeData bs).nonce = s.nonce := rfl

/-! ### writing blue bytes -/

@[simp] theorem State.writeBlue_params (s : State) (bs : List Byte) : (s.writeBlue bs).params = s.params := rfl
@[simp] theorem State.writeBlue_status (s : State) (bs : List Byte) : (s.writeBlue bs).status = s.status := rfl
@[simp] theorem State.writeBlue_width (s : State) (bs : List Byte) : (s.writeBlue bs).width = s.width := rfl
@[simp] theorem State.writeBlue_height (s : State) (bs : List Byte) : (s.writeBlue bs).height = s.height := rfl
@[simp] theorem State.writeBlue_payloadLen (s : State) (bs : List Byte) : (s.writeBlue bs).payloadLen = s.payloadLen := rfl
@[simp] theorem State.writeBlue_keyLen (s : State) (bs : List Byte) : (s.writeBlue bs).keyLen = s.keyLen := rfl
@[simp] theorem State.writeBlue_maxRecovery (s : State) (bs : List Byte) : (s.writeBlue bs).maxRecovery = s.maxRecovery := rfl
@[simp] theorem State.writeBlue_recovLen (s : State) (bs : List Byte) : (s.writeBlue bs).recovLen = s.recovLen := rfl
@[simp] theorem State.writeBlue_foundLen (s : State) (bs : List Byte) : (s.writeBlue bs).foundLen = s.foundLen := rfl
@[simp] theorem State.writeBlue_phase (s : State) (bs : List Byte) : (s.writeBlue bs).phase = s.phase := rfl
@[simp] theorem State.writeBlue_snap (s : State) (bs : List Byte) : (s.writeBlue bs).snap = s.snap := rfl
@[simp] theorem State.writeBlue_datapath (s : State) (bs : List Byte) : (s.writeBlue bs).datapath = s.datapath := rfl
@[simp] theorem State.writeBlue_mem (s : State) (bs : List Byte) : (s.writeBlue bs).mem = Memory.writeEvery pixBytes s.mem (blueAddr 0) bs := rfl
@[simp] theorem State.writeBlue_host (s : State) (bs : List Byte) : (s.writeBlue bs).host = s.host := rfl
@[simp] theorem State.writeBlue_readLog (s : State) (bs : List Byte) : (s.writeBlue bs).readLog = s.readLog := rfl
@[simp] theorem State.writeBlue_wait (s : State) (bs : List Byte) : (s.writeBlue bs).wait = s.wait := rfl
@[simp] theorem State.writeBlue_nonce (s : State) (bs : List Byte) : (s.writeBlue bs).nonce = s.nonce := rfl

/-! ### the recovered bytes (R146) -/

@[simp] theorem State.writeRecovered_params (s : State) (bs : List Byte) : (s.writeRecovered bs).params = s.params := rfl
@[simp] theorem State.writeRecovered_status (s : State) (bs : List Byte) : (s.writeRecovered bs).status = s.status := rfl
@[simp] theorem State.writeRecovered_width (s : State) (bs : List Byte) : (s.writeRecovered bs).width = s.width := rfl
@[simp] theorem State.writeRecovered_height (s : State) (bs : List Byte) : (s.writeRecovered bs).height = s.height := rfl
@[simp] theorem State.writeRecovered_payloadLen (s : State) (bs : List Byte) : (s.writeRecovered bs).payloadLen = s.payloadLen := rfl
@[simp] theorem State.writeRecovered_keyLen (s : State) (bs : List Byte) : (s.writeRecovered bs).keyLen = s.keyLen := rfl
@[simp] theorem State.writeRecovered_maxRecovery (s : State) (bs : List Byte) : (s.writeRecovered bs).maxRecovery = s.maxRecovery := rfl
@[simp] theorem State.writeRecovered_recovLen (s : State) (bs : List Byte) : (s.writeRecovered bs).recovLen = BitVec.ofNat 32 bs.length := rfl
@[simp] theorem State.writeRecovered_foundLen (s : State) (bs : List Byte) : (s.writeRecovered bs).foundLen = s.foundLen := rfl
@[simp] theorem State.writeRecovered_phase (s : State) (bs : List Byte) : (s.writeRecovered bs).phase = s.phase := rfl
@[simp] theorem State.writeRecovered_snap (s : State) (bs : List Byte) : (s.writeRecovered bs).snap = s.snap := rfl
@[simp] theorem State.writeRecovered_datapath (s : State) (bs : List Byte) : (s.writeRecovered bs).datapath = s.datapath := rfl
@[simp] theorem State.writeRecovered_mem (s : State) (bs : List Byte) : (s.writeRecovered bs).mem = Memory.writeEvery 1 s.mem (dataAddr 0) bs := rfl
@[simp] theorem State.writeRecovered_host (s : State) (bs : List Byte) : (s.writeRecovered bs).host = s.host := rfl
@[simp] theorem State.writeRecovered_readLog (s : State) (bs : List Byte) : (s.writeRecovered bs).readLog = s.readLog := rfl
@[simp] theorem State.writeRecovered_wait (s : State) (bs : List Byte) : (s.writeRecovered bs).wait = s.wait := rfl
@[simp] theorem State.writeRecovered_nonce (s : State) (bs : List Byte) : (s.writeRecovered bs).nonce = s.nonce := rfl

/-! ### the reset input (R240) -/

@[simp] theorem State.hwReset_params (s : State) : (s.hwReset).params = s.params := rfl
@[simp] theorem State.hwReset_status (s : State) : (s.hwReset).status = ⟨false, false, false, .none, .none⟩ := rfl
@[simp] theorem State.hwReset_width (s : State) : (s.hwReset).width = 0 := rfl
@[simp] theorem State.hwReset_height (s : State) : (s.hwReset).height = 0 := rfl
@[simp] theorem State.hwReset_payloadLen (s : State) : (s.hwReset).payloadLen = 0 := rfl
@[simp] theorem State.hwReset_keyLen (s : State) : (s.hwReset).keyLen = 0 := rfl
@[simp] theorem State.hwReset_maxRecovery (s : State) : (s.hwReset).maxRecovery = maxRecoveryReset := rfl
@[simp] theorem State.hwReset_recovLen (s : State) : (s.hwReset).recovLen = 0 := rfl
@[simp] theorem State.hwReset_foundLen (s : State) : (s.hwReset).foundLen = 0 := rfl
@[simp] theorem State.hwReset_phase (s : State) : (s.hwReset).phase = .idle := rfl
@[simp] theorem State.hwReset_snap (s : State) : (s.hwReset).snap = ⟨0, 0, 0, 0, 0, 0⟩ := rfl
@[simp] theorem State.hwReset_datapath (s : State) : (s.hwReset).datapath = ⟨0, 0, 0, 0, 0, [], .none⟩ := rfl
@[simp] theorem State.hwReset_mem (s : State) : (s.hwReset).mem = [] := rfl
@[simp] theorem State.hwReset_host (s : State) : (s.hwReset).host = s.host := rfl
@[simp] theorem State.hwReset_readLog (s : State) : (s.hwReset).readLog = s.readLog := rfl
@[simp] theorem State.hwReset_wait (s : State) : (s.hwReset).wait = 0 := rfl
@[simp] theorem State.hwReset_nonce (s : State) : (s.hwReset).nonce = s.nonce := rfl

/-! ### EXTRACT's result (R162) -/

@[simp] theorem State.writeResult_params (s : State) (r : Option Nat) : (s.writeResult r).params = s.params := by cases r <;> rfl
@[simp] theorem State.writeResult_none_status (s : State) :
    (s.writeResult none).status = { s.status with result := .notFound } := rfl
@[simp] theorem State.writeResult_some_status (s : State) (L : Nat) :
    (s.writeResult (some L)).status = { s.status with result := .found } := rfl
@[simp] theorem State.writeResult_width (s : State) (r : Option Nat) : (s.writeResult r).width = s.width := by cases r <;> rfl
@[simp] theorem State.writeResult_height (s : State) (r : Option Nat) : (s.writeResult r).height = s.height := by cases r <;> rfl
@[simp] theorem State.writeResult_payloadLen (s : State) (r : Option Nat) : (s.writeResult r).payloadLen = s.payloadLen := by cases r <;> rfl
@[simp] theorem State.writeResult_keyLen (s : State) (r : Option Nat) : (s.writeResult r).keyLen = s.keyLen := by cases r <;> rfl
@[simp] theorem State.writeResult_maxRecovery (s : State) (r : Option Nat) : (s.writeResult r).maxRecovery = s.maxRecovery := by cases r <;> rfl
@[simp] theorem State.writeResult_recovLen (s : State) (r : Option Nat) : (s.writeResult r).recovLen = s.recovLen := by cases r <;> rfl
@[simp] theorem State.writeResult_none_foundLen (s : State) : (s.writeResult none).foundLen = s.foundLen := rfl
@[simp] theorem State.writeResult_some_foundLen (s : State) (L : Nat) :
    (s.writeResult (some L)).foundLen = BitVec.ofNat 32 L := rfl
@[simp] theorem State.writeResult_phase (s : State) (r : Option Nat) : (s.writeResult r).phase = s.phase := by cases r <;> rfl
@[simp] theorem State.writeResult_snap (s : State) (r : Option Nat) : (s.writeResult r).snap = s.snap := by cases r <;> rfl
@[simp] theorem State.writeResult_datapath (s : State) (r : Option Nat) : (s.writeResult r).datapath = s.datapath := by cases r <;> rfl
@[simp] theorem State.writeResult_mem (s : State) (r : Option Nat) : (s.writeResult r).mem = s.mem := by cases r <;> rfl
@[simp] theorem State.writeResult_host (s : State) (r : Option Nat) : (s.writeResult r).host = s.host := by cases r <;> rfl
@[simp] theorem State.writeResult_readLog (s : State) (r : Option Nat) : (s.writeResult r).readLog = s.readLog := by cases r <;> rfl
@[simp] theorem State.writeResult_wait (s : State) (r : Option Nat) : (s.writeResult r).wait = s.wait := by cases r <;> rfl
@[simp] theorem State.writeResult_nonce (s : State) (r : Option Nat) : (s.writeResult r).nonce = s.nonce := by cases r <;> rfl

/-! ### a host move while busy -/

@[simp] theorem State.tick_params (s : State) : s.tick.params = s.params := by unfold State.tick; split <;> rfl
@[simp] theorem State.tick_status (s : State) : s.tick.status = s.status := by unfold State.tick; split <;> rfl
@[simp] theorem State.tick_width (s : State) : s.tick.width = s.width := by unfold State.tick; split <;> rfl
@[simp] theorem State.tick_height (s : State) : s.tick.height = s.height := by unfold State.tick; split <;> rfl
@[simp] theorem State.tick_payloadLen (s : State) : s.tick.payloadLen = s.payloadLen := by unfold State.tick; split <;> rfl
@[simp] theorem State.tick_keyLen (s : State) : s.tick.keyLen = s.keyLen := by unfold State.tick; split <;> rfl
@[simp] theorem State.tick_maxRecovery (s : State) : s.tick.maxRecovery = s.maxRecovery := by unfold State.tick; split <;> rfl
@[simp] theorem State.tick_recovLen (s : State) : s.tick.recovLen = s.recovLen := by unfold State.tick; split <;> rfl
@[simp] theorem State.tick_foundLen (s : State) : s.tick.foundLen = s.foundLen := by unfold State.tick; split <;> rfl
@[simp] theorem State.tick_phase (s : State) : s.tick.phase = s.phase := by unfold State.tick; split <;> rfl
@[simp] theorem State.tick_snap (s : State) : s.tick.snap = s.snap := by unfold State.tick; split <;> rfl
@[simp] theorem State.tick_datapath (s : State) : s.tick.datapath = s.datapath := by unfold State.tick; split <;> rfl
@[simp] theorem State.tick_mem (s : State) : s.tick.mem = s.mem := by unfold State.tick; split <;> rfl
@[simp] theorem State.tick_host (s : State) : s.tick.host = s.host := by unfold State.tick; split <;> rfl
@[simp] theorem State.tick_readLog (s : State) : s.tick.readLog = s.readLog := by unfold State.tick; split <;> rfl
theorem State.tick_wait (s : State) : s.tick.wait = if s.phase = .busy then s.wait - 1 else s.wait := by
  unfold State.tick; split <;> simp_all
@[simp] theorem State.tick_nonce (s : State) : s.tick.nonce = s.nonce := by unfold State.tick; split <;> rfl

/-! ### STATUS -/

@[simp] theorem Status.accepted_busy (st : Status) : (st.accepted).busy = true := rfl
@[simp] theorem Status.accepted_done (st : Status) : (st.accepted).done = false := rfl
@[simp] theorem Status.accepted_ovr (st : Status) : (st.accepted).ovr = st.ovr := rfl
@[simp] theorem Status.accepted_err (st : Status) : (st.accepted).err = .none := rfl
@[simp] theorem Status.accepted_result (st : Status) : (st.accepted).result = .none := rfl
@[simp] theorem Status.completed_busy (st : Status) (e : ErrCode) : (st.completed e).busy = false := rfl
@[simp] theorem Status.completed_done (st : Status) (e : ErrCode) : (st.completed e).done = true := rfl
@[simp] theorem Status.completed_ovr (st : Status) (e : ErrCode) : (st.completed e).ovr = st.ovr := rfl
@[simp] theorem Status.completed_err (st : Status) (e : ErrCode) : (st.completed e).err = e := rfl
@[simp] theorem Status.completed_result (st : Status) (e : ErrCode) : (st.completed e).result = st.result := rfl
@[simp] theorem Status.overrun_busy (st : Status) : (st.overrun).busy = st.busy := rfl
@[simp] theorem Status.overrun_done (st : Status) : (st.overrun).done = st.done := rfl
@[simp] theorem Status.overrun_ovr (st : Status) : (st.overrun).ovr = true := rfl
@[simp] theorem Status.overrun_err (st : Status) : (st.overrun).err = st.err := rfl
@[simp] theorem Status.overrun_result (st : Status) : (st.overrun).result = st.result := rfl
@[simp] theorem Status.w1c_busy (st : Status) (v : Word) : (st.w1c v).busy = st.busy := rfl
@[simp] theorem Status.w1c_done (st : Status) (v : Word) : (st.w1c v).done = (st.done && !v.getLsbD 1) := rfl
@[simp] theorem Status.w1c_ovr (st : Status) (v : Word) : (st.w1c v).ovr = (st.ovr && !v.getLsbD 2) := rfl
@[simp] theorem Status.w1c_err (st : Status) (v : Word) : (st.w1c v).err = st.err := rfl
@[simp] theorem Status.w1c_result (st : Status) (v : Word) : (st.w1c v).result = st.result := rfl

end Sys2Proof.Machine
end

