-- ==== Sys2Proof/Laws/Memory.lean ====
section
/-! SUPPORT. What the memory operations do: a read after a write, runs of bytes read and written, the canonical form kept. -/

namespace Sys2Proof.Machine

/-! ### One byte -/

@[simp] theorem Memory.read_nil (a : Nat) : Memory.read [] a = none := rfl

/-- A read after a write: the byte written there, and every other byte as before. -/
theorem Memory.read_write (m : Memory) (a : Nat) (v : Byte) (b : Nat) :
    (m.write a v).read b = if b = a then some v else m.read b := by
  induction m with
  | nil => simp [Memory.write, Memory.read]
  | cons c m ih =>
    obtain ⟨k, w⟩ := c
    rcases Nat.lt_trichotomy a k with h | h | h
    · by_cases hb : b = a <;> simp [Memory.write, Memory.read, h, hb]
    · subst h
      by_cases hb : b = a <;> simp [Memory.write, Memory.read, hb]
    · have h1 : ¬ a < k := by omega
      have h2 : ¬ a = k := by omega
      simp only [Memory.write, h1, h2, if_false, Memory.read, ih]
      by_cases hb : b = a
      · subst hb; simp [h2]
      · simp [hb]

theorem Memory.risesFrom_write {m : Memory} {lo a : Nat} {v : Byte} (h : Memory.risesFrom lo m = true) (ha : lo < a) :
    Memory.risesFrom lo (m.write a v) = true := by
  induction m generalizing lo with
  | nil => simp [Memory.write, Memory.risesFrom, ha]
  | cons c m ih =>
    obtain ⟨k, w⟩ := c
    simp only [Memory.risesFrom, Bool.and_eq_true, decide_eq_true_eq] at h
    rcases Nat.lt_trichotomy a k with hk | hk | hk
    · simp [Memory.write, Memory.risesFrom, hk, ha, h.2]
    · subst hk; simp [Memory.write, Memory.risesFrom, ha, h.2]
    · have h1 : ¬ a < k := by omega
      have h2 : ¬ a = k := by omega
      simp [Memory.write, h1, h2, Memory.risesFrom, h.1, ih h.2 hk]

/-- A write keeps the canonical form. -/
theorem Memory.wf_write {m : Memory} {a : Nat} {v : Byte} (h : m.wf = true) : (m.write a v).wf = true := by
  cases m with
  | nil => rfl
  | cons c m =>
    obtain ⟨k, w⟩ := c
    simp only [Memory.wf] at h
    rcases Nat.lt_trichotomy a k with hk | hk | hk
    · simp [Memory.write, Memory.wf, Memory.risesFrom, hk, h]
    · subst hk; simp [Memory.write, Memory.wf, h]
    · have h1 : ¬ a < k := by omega
      have h2 : ¬ a = k := by omega
      simp [Memory.write, h1, h2, Memory.wf, Memory.risesFrom_write h hk]

/-- A write lists no offset but the one written and those listed before. -/
theorem Memory.mem_write {m : Memory} {a : Nat} {v : Byte} {c : Host.Cell} (h : c ∈ m.write a v) : c.1 = a ∨ c ∈ m := by
  induction m with
  | nil => simp [Memory.write] at h; exact .inl (by simp [h])
  | cons d m ih =>
    obtain ⟨k, w⟩ := d
    simp only [Memory.write] at h
    split at h
    · rcases List.mem_cons.1 h with rfl | h
      · exact .inl rfl
      · exact .inr h
    · split at h
      · rcases List.mem_cons.1 h with rfl | h
        · exact .inl rfl
        · exact .inr (List.mem_cons_of_mem _ h)
      · rcases List.mem_cons.1 h with rfl | h
        · exact .inr (List.mem_cons_self ..)
        · exact (ih h).imp_right (List.mem_cons_of_mem _)

/-! ### Runs of bytes -/

/-- A run that is read: every byte of it is written, and these are they. -/
theorem Memory.readEvery_eq_some {m : Memory} {d a n : Nat} {bs : List Byte} :
    m.readEvery d a n = some bs ↔ bs.length = n ∧ ∀ i < n, m.read (a + d * i) = some (bs.getD i 0) := by
  induction n generalizing a bs with
  | zero => cases bs <;> simp [Memory.readEvery]
  | succ n ih =>
    rw [Memory.readEvery]
    constructor
    · intro h
      split at h
      · rename_i b bs' h1 h2
        cases h
        obtain ⟨hl, hr⟩ := ih.1 h2
        refine ⟨by simp [hl], fun i hi => ?_⟩
        cases i with
        | zero => simpa using h1
        | succ i =>
          have := hr i (by omega)
          rw [show a + d * (i + 1) = a + d + d * i by ring]
          simpa using this
      · cases h
    · rintro ⟨hl, hr⟩
      cases bs with
      | nil => simp at hl
      | cons b bs =>
        have h0 := hr 0 (by omega)
        have h1 : m.readEvery d (a + d) n = some bs := by
          refine ih.2 ⟨by simpa using hl, fun i hi => ?_⟩
          have := hr (i + 1) (by omega)
          rw [show a + d * (i + 1) = a + d + d * i by ring] at this
          simpa using this
        simp only [Nat.mul_zero, Nat.add_zero, List.getD_cons_zero] at h0
        simp [h0, h1]

/-- A run that is not read: one of its bytes is unwritten. -/
theorem Memory.readEvery_eq_none {m : Memory} {d a n : Nat} :
    m.readEvery d a n = none ↔ ∃ i < n, m.read (a + d * i) = none := by
  induction n generalizing a with
  | zero => simp [Memory.readEvery]
  | succ n ih =>
    have key : m.readEvery d a (n + 1) = none ↔ m.read a = none ∨ m.readEvery d (a + d) n = none := by
      rw [Memory.readEvery]
      cases m.read a <;> cases m.readEvery d (a + d) n <;> simp
    rw [key, ih]
    constructor
    · rintro (h | ⟨i, hi, h⟩)
      · exact ⟨0, by omega, by simpa using h⟩
      · exact ⟨i + 1, by omega, by rw [show a + d * (i + 1) = a + d + d * i by ring]; exact h⟩
    · rintro ⟨i, hi, h⟩
      cases i with
      | zero => exact .inl (by simpa using h)
      | succ i => exact .inr ⟨i, by omega, by rw [show a + d * (i + 1) = a + d + d * i by ring] at h; exact h⟩

/-- A run whose bytes are all written is read. -/
theorem Memory.readEvery_of_written {m : Memory} {d a n : Nat} (h : ∀ i < n, m.read (a + d * i) ≠ none) :
    ∃ bs, m.readEvery d a n = some bs := by
  cases hr : m.readEvery d a n with
  | some bs => exact ⟨bs, rfl⟩
  | none =>
    obtain ⟨i, hi, h'⟩ := Memory.readEvery_eq_none.1 hr
    exact absurd h' (h i hi)

/-- Two memories that agree on a run read the same there. -/
theorem Memory.readEvery_congr {m m' : Memory} {d a n : Nat} (h : ∀ i < n, m'.read (a + d * i) = m.read (a + d * i)) :
    m'.readEvery d a n = m.readEvery d a n := by
  cases hr : m.readEvery d a n with
  | some bs =>
    obtain ⟨hl, hb⟩ := Memory.readEvery_eq_some.1 hr
    exact Memory.readEvery_eq_some.2 ⟨hl, fun i hi => (h i hi).trans (hb i hi)⟩
  | none =>
    obtain ⟨i, hi, h'⟩ := Memory.readEvery_eq_none.1 hr
    exact Memory.readEvery_eq_none.2 ⟨i, hi, (h i hi).trans h'⟩

/-- A byte outside the run written is as before. -/
theorem Memory.read_writeEvery_of_ne {m : Memory} {d a b : Nat} {bs : List Byte}
    (h : ∀ i < bs.length, b ≠ a + d * i) : (Memory.writeEvery d m a bs).read b = m.read b := by
  induction bs generalizing m a with
  | nil => rfl
  | cons v bs ih =>
    rw [Memory.writeEvery, ih, Memory.read_write, if_neg]
    · simpa using h 0 (by simp)
    · intro i hi
      have := h (i + 1) (by simpa using hi)
      rwa [show a + d * (i + 1) = a + d + d * i by ring] at this

/-- A byte of the run written is the byte listed for it. -/
theorem Memory.read_writeEvery {m : Memory} {d a i : Nat} {bs : List Byte} (hd : 0 < d) (hi : i < bs.length) :
    (Memory.writeEvery d m a bs).read (a + d * i) = some (bs.getD i 0) := by
  induction bs generalizing m a i with
  | nil => simp at hi
  | cons v bs ih =>
    cases i with
    | zero =>
      rw [Memory.writeEvery, Memory.read_writeEvery_of_ne, Memory.read_write, if_pos] <;> simp
      intro j _
      exact fun h => absurd h (by omega)
    | succ i =>
      rw [Memory.writeEvery, show a + d * (i + 1) = a + d + d * i by ring, ih (by simpa using hi)]
      simp

theorem Memory.wf_writeEvery {m : Memory} {d a : Nat} {bs : List Byte} (h : m.wf = true) :
    (Memory.writeEvery d m a bs).wf = true := by
  induction bs generalizing m a with
  | nil => exact h
  | cons v bs ih => exact ih (Memory.wf_write h)

theorem Memory.mem_writeEvery {m : Memory} {d a : Nat} {bs : List Byte} {c : Host.Cell}
    (h : c ∈ Memory.writeEvery d m a bs) : (∃ i < bs.length, c.1 = a + d * i) ∨ c ∈ m := by
  induction bs generalizing m a with
  | nil => exact .inr h
  | cons v bs ih =>
    rcases ih h with ⟨i, hi, hc⟩ | hc
    · exact .inl ⟨i + 1, by simpa using hi, by rw [hc]; ring⟩
    · rcases Memory.mem_write hc with hc | hc
      · exact .inl ⟨0, by simp, by simp [hc]⟩
      · exact .inr hc

end Sys2Proof.Machine
end

