-- ==== Sys2Proof/Laws/Codec.lean ====
section
/-! SUPPORT. What the datapath's functions give: lengths, and the value at each position. -/

namespace Sys2Proof.Machine

/-! ### Lists read by position -/

theorem getD_eq_getElem_getD {α : Type} (l : List α) (i : Nat) (x : α) : l.getD i x = l[i]?.getD x := rfl

theorem getD_take {α : Type} {l : List α} {n i : Nat} {x : α} (h : i < n) : (l.take n).getD i x = l.getD i x := by
  simp [List.getD, h]

theorem getD_map_range {α : Type} {f : Nat → α} {n i : Nat} {x : α} (h : i < n) :
    ((List.range n).map f).getD i x = f i := by
  simp [List.getD, h]

theorem getD_of_le {α : Type} {l : List α} {i : Nat} {x : α} (h : l.length ≤ i) : l.getD i x = x := by
  simp [List.getD, List.getElem?_eq_none h]

theorem getD_map {α β : Type} {f : α → β} {l : List α} {i : Nat} {x : α} {y : β} (h : i < l.length) :
    (l.map f).getD i y = f (l.getD i x) := by
  simp [List.getD, h]

theorem getD_zipWith {α β γ : Type} {f : α → β → γ} {l : List α} {l' : List β} {i : Nat} {x : α} {y : β} {z : γ}
    (h : i < l.length) (h' : i < l'.length) : (List.zipWith f l l').getD i z = f (l.getD i x) (l'.getD i y) := by
  simp [List.getD, h, h']

/-- Two lists of one length with equal entries are equal. -/
theorem eq_of_getD {α : Type} {l l' : List α} {x : α} (hl : l.length = l'.length)
    (h : ∀ i < l.length, l.getD i x = l'.getD i x) : l = l' := by
  refine List.ext_getElem hl fun i h1 h2 => ?_
  have := h i h1
  simpa [List.getD, h1, h2] using this

/-! ### The bit codec -/

@[simp] theorem bytesToBits_length (d : List Byte) : (bytesToBits d).length = 8 * d.length := by simp [bytesToBits]

theorem bytesToBits_getD {d : List Byte} {t : Nat} (h : t < 8 * d.length) :
    (bytesToBits d).getD t false = bitAt d t := getD_map_range h

@[simp] theorem bitsToBytes_length (b : List Bool) : (bitsToBytes b).length = b.length / 8 := by simp [bitsToBytes]

theorem bitsToBytes_getD {b : List Bool} {i : Nat} (h : i < b.length / 8) : (bitsToBytes b).getD i 0 = byteAt b i :=
  getD_map_range h

theorem byteOfBits_getLsbD : ∀ (b0 b1 b2 b3 b4 b5 b6 b7 : Bool) (j : Fin 8),
    (BitVec.ofNat 8 (b0.toNat * 128 + b1.toNat * 64 + b2.toNat * 32 + b3.toNat * 16 + b4.toNat * 8 + b5.toNat * 4 +
      b6.toNat * 2 + b7.toNat)).getLsbD (7 - j) = [b0, b1, b2, b3, b4, b5, b6, b7].getD j false := by decide

/-- Bit `7 − j` of byte i is bit `8i + j` of the sequence. -/
theorem byteAt_getLsbD (b : List Bool) (i : Nat) {j : Nat} (h : j < 8) :
    (byteAt b i).getLsbD (7 - j) = b.getD (8 * i + j) false := by
  have := byteOfBits_getLsbD (b.getD (8 * i) false) (b.getD (8 * i + 1) false) (b.getD (8 * i + 2) false)
    (b.getD (8 * i + 3) false) (b.getD (8 * i + 4) false) (b.getD (8 * i + 5) false) (b.getD (8 * i + 6) false)
    (b.getD (8 * i + 7) false) ⟨j, h⟩
  have e : byteAt b i = BitVec.ofNat 8 ((b.getD (8 * i) false).toNat * 128 + (b.getD (8 * i + 1) false).toNat * 64 +
      (b.getD (8 * i + 2) false).toNat * 32 + (b.getD (8 * i + 3) false).toNat * 16 +
      (b.getD (8 * i + 4) false).toNat * 8 + (b.getD (8 * i + 5) false).toNat * 4 +
      (b.getD (8 * i + 6) false).toNat * 2 + (b.getD (8 * i + 7) false).toNat) := by
    simp [byteAt, List.range_succ, Nat.add_assoc]
  rw [e, this]
  interval_cases j <;> rfl

/-- Bytes with the same bits, counted from the most significant, are equal. -/
theorem byte_ext {x y : Byte} (h : ∀ j < 8, x.getLsbD (7 - j) = y.getLsbD (7 - j)) : x = y := by
  refine BitVec.eq_of_getLsbD_eq fun i hi => ?_
  have := h (7 - i) (by omega)
  rwa [show 7 - (7 - i) = i by omega] at this

/-! ### The channel bit -/

theorem channelBit_eq (v : Byte) : channelBit v = v.getLsbD 0 := by
  revert v; decide

theorem channelBit_insertBit (v : Byte) (b : Bool) : channelBit (insertBit v b) = b := by
  revert v b; decide

theorem channelBit_clearBit (v : Byte) : channelBit (clearBit v) = false := by
  revert v; decide

theorem insertBit_high (v : Byte) (b : Bool) : insertBit v b &&& 0xFE = v &&& 0xFE := by
  revert v b; decide

theorem insertBit_insertBit (v : Byte) (b c : Bool) : insertBit (insertBit v b) c = insertBit v c := by
  revert v b c; decide

theorem clearBit_high (v : Byte) : clearBit v &&& 0xFE = v &&& 0xFE := by
  revert v; decide

theorem clearBit_clearBit (v : Byte) : clearBit (clearBit v) = clearBit v := by
  revert v; decide

/-- Inserting bit j of a byte, as shifts and masks. -/
theorem insertBit_bit (v d : Byte) {j : Nat} (hj : j < 8) :
    insertBit v (d.getLsbD (7 - j)) = (v &&& 0xFE) ||| ((d >>> (7 - j)) &&& 1) := by
  unfold insertBit
  congr 1
  revert d
  interval_cases j <;> decide

/-! ### The cipher and the framer -/

@[simp] theorem applyKey_length (d k : List Byte) : (applyKey d k).length = d.length := by
  unfold applyKey; split <;> simp

theorem applyKey_getD {d k : List Byte} {i : Nat} (h : i < d.length) :
    (applyKey d k).getD i 0 = d.getD i 0 ^^^ k.getD (i % k.length) 0 := by
  unfold applyKey
  split
  · rename_i hk
    rw [getD_of_le (l := k) (by omega)]; simp
  · exact getD_map_range h

@[simp] theorem sentinel_length : sentinel.length = 6 := rfl

@[simp] theorem frame_length (p k : List Byte) : (frame p k).length = p.length + 6 := by simp [frame]

/-- Ciphering reads no more of the key than min(n, K) bytes: two keys that agree there cipher alike (R125). -/
theorem applyKey_congr {d k k' : List Byte} {K : Nat} (hk : k.length = K) (hk' : k'.length = min d.length K)
    (h : ∀ i < min d.length K, k'.getD i 0 = k.getD i 0) : applyKey d k' = applyKey d k := by
  refine eq_of_getD (x := 0) (by simp) fun i hi => ?_
  simp only [applyKey_length] at hi
  rw [applyKey_getD hi, applyKey_getD hi, hk, hk']
  congr 1
  rcases Nat.eq_zero_or_pos K with h0 | h0
  · have e : k = [] := List.eq_nil_of_length_eq_zero (by omega)
    have e' : k' = [] := List.eq_nil_of_length_eq_zero (by omega)
    simp [e, e']
  · rcases Nat.le_total d.length K with hle | hle
    · rw [Nat.min_eq_left hle, Nat.mod_eq_of_lt hi, Nat.mod_eq_of_lt (by omega)]
      exact h i (by omega)
    · rw [Nat.min_eq_right hle]
      exact h _ (by rw [Nat.min_eq_right hle]; exact Nat.mod_lt _ h0)

end Sys2Proof.Machine
end

