-- ==== Sys2Proof/Laws/Exec.lean ====
section
/-! SUPPORT. What each command can do, said once: an inversion lemma for each meaning ("if it answers next t, then …"), and
what validation answers. The runs of bytes a command reads and writes are put in terms of single reads. -/

namespace Sys2Proof.Machine

/-! ### Validation -/

@[simp] theorem firstError_nil : firstError [] = none := rfl
@[simp] theorem firstError_some (e : ErrCode) (cs : List (Option ErrCode)) : firstError (some e :: cs) = some e := rfl
@[simp] theorem firstError_none (cs : List (Option ErrCode)) : firstError (none :: cs) = firstError cs := rfl

/-- Validation answers the first failing check's abort, or the body. -/
theorem validated_cases (cs : List (Option ErrCode)) (s : State) (body : Host.Outcome State Fault Refusal) :
    (∃ e, firstError cs = some e ∧ validated cs s body = .next (s.abort e)) ∨
      (firstError cs = none ∧ validated cs s body = body) := by
  unfold validated
  split
  · rename_i e h; exact .inl ⟨e, h, rfl⟩
  · rename_i h; exact .inr ⟨h, rfl⟩

theorem firstError_eq_none_iff (cs : List (Option ErrCode)) : firstError cs = none ↔ ∀ c ∈ cs, c = none := by
  induction cs with
  | nil => simp
  | cons c cs ih => cases c <;> simp [ih]

theorem checkDim_eq_none (s : State) : s.checkDim = none ↔ s.DimOk := by
  unfold State.checkDim State.DimOk; split <;> simp <;> omega

theorem checkN_eq_none (s : State) : s.checkN = none ↔ s.NOk := by
  unfold State.checkN State.NOk; split <;> simp <;> omega

theorem checkK_eq_none (s : State) : s.checkK = none ↔ s.KOk := by
  unfold State.checkK State.KOk; split <;> simp <;> omega

theorem checkM_eq_none (s : State) : s.checkM = none ↔ s.MOk := by
  unfold State.checkM State.MOk; split <;> simp <;> omega

theorem checkCapacity_eq_none (s : State) (n : Nat) : s.checkCapacity n = none ↔ 8 * n ≤ s.cap := by
  unfold State.checkCapacity; split <;> simp <;> omega

/-- The codes the checks raise are errors, not NONE. -/
theorem firstError_ne_none {cs : List (Option ErrCode)} {e : ErrCode} (h : firstError cs = some e)
    (hc : ∀ c ∈ cs, c ≠ some .none) : e ≠ .none := by
  induction cs with
  | nil => simp at h
  | cons c cs ih =>
    cases c with
    | none => exact ih h fun c hc' => hc c (List.mem_cons_of_mem _ hc')
    | some e' => rintro rfl; exact hc _ (List.mem_cons_self ..) h

theorem checkDim_ne (s : State) : s.checkDim ≠ some .none := by unfold State.checkDim; split <;> simp
theorem checkN_ne (s : State) : s.checkN ≠ some .none := by unfold State.checkN; split <;> simp
theorem checkK_ne (s : State) : s.checkK ≠ some .none := by unfold State.checkK; split <;> simp
theorem checkM_ne (s : State) : s.checkM ≠ some .none := by unfold State.checkM; split <;> simp
theorem checkCapacity_ne (s : State) (n : Nat) : s.checkCapacity n ≠ some .none := by
  unfold State.checkCapacity; split <;> simp

/-! ### Reading the bytes needed -/

theorem needBytes_eq_next {o : Option (List Byte)} {k : List Byte → Host.Outcome State Fault Refusal} {t : State} :
    needBytes o k = .next t ↔ ∃ bs, o = some bs ∧ k bs = .next t := by
  cases o <;> simp [needBytes]

@[simp] theorem needBytes_some (bs : List Byte) (k : List Byte → Host.Outcome State Fault Refusal) :
    needBytes (some bs) k = k bs := rfl

@[simp] theorem needBytes_none (k : List Byte → Host.Outcome State Fault Refusal) :
    needBytes none k = .fault .uninitRead := rfl

theorem dataAddr_add (i : Nat) : dataAddr 0 + 1 * i = dataAddr i := by simp [dataAddr]
theorem keyAddr_add (i : Nat) : keyAddr 0 + 1 * i = keyAddr i := by simp [keyAddr]
theorem blueAddr_add (p : Nat) : blueAddr 0 + pixBytes * p = blueAddr p := by
  simp [blueAddr, pixAddr, pixBytes]; omega

theorem dataAddr_inj {i j : Nat} : dataAddr i = dataAddr j ↔ i = j := by simp [dataAddr]
theorem keyAddr_inj {i j : Nat} : keyAddr i = keyAddr j ↔ i = j := by simp [keyAddr]
theorem blueAddr_inj {i j : Nat} : blueAddr i = blueAddr j ↔ i = j := by
  simp [blueAddr, pixAddr, pixBytes]

theorem State.dataBytes_eq_some {s : State} {n : Nat} {d : List Byte} :
    s.dataBytes n = some d ↔ d.length = n ∧ ∀ i < n, s.data i = some (d.getD i 0) := by
  simp only [State.dataBytes, Memory.readEvery_eq_some, dataAddr_add, State.data]

theorem State.dataBytes_eq_none {s : State} {n : Nat} : s.dataBytes n = none ↔ ∃ i < n, s.data i = none := by
  simp only [State.dataBytes, Memory.readEvery_eq_none, dataAddr_add, State.data]

theorem State.keyBytes_eq_some {s : State} {n : Nat} {k : List Byte} :
    s.keyBytes n = some k ↔ k.length = min n s.lenK ∧ ∀ i < min n s.lenK, s.key i = some (k.getD i 0) := by
  simp only [State.keyBytes, Memory.readEvery_eq_some, keyAddr_add, State.key]

theorem State.keyBytes_eq_none {s : State} {n : Nat} :
    s.keyBytes n = none ↔ ∃ i < min n s.lenK, s.key i = none := by
  simp only [State.keyBytes, Memory.readEvery_eq_none, keyAddr_add, State.key]

theorem State.blueBytes_eq_some {s : State} {n : Nat} {v : List Byte} :
    s.blueBytes n = some v ↔ v.length = n ∧ ∀ p < n, s.blue p = some (v.getD p 0) := by
  simp only [State.blueBytes, Memory.readEvery_eq_some, blueAddr_add, State.blue]

theorem State.blueBytes_eq_none {s : State} {n : Nat} : s.blueBytes n = none ↔ ∃ p < n, s.blue p = none := by
  simp only [State.blueBytes, Memory.readEvery_eq_none, blueAddr_add, State.blue]

theorem State.dataBytes_of_written {s : State} {n : Nat} (h : s.DataWritten n) : ∃ d, s.dataBytes n = some d := by
  cases hd : s.dataBytes n with
  | some d => exact ⟨d, rfl⟩
  | none => obtain ⟨i, hi, hn⟩ := State.dataBytes_eq_none.1 hd; exact absurd hn (h i hi)

theorem State.keyBytes_of_written {s : State} {n : Nat} (h : s.KeyWritten (min n s.lenK)) :
    ∃ k, s.keyBytes n = some k := by
  cases hd : s.keyBytes n with
  | some d => exact ⟨d, rfl⟩
  | none => obtain ⟨i, hi, hn⟩ := State.keyBytes_eq_none.1 hd; exact absurd hn (h i hi)

theorem State.blueBytes_of_written {s : State} {n : Nat} (h : s.BlueWritten n) : ∃ v, s.blueBytes n = some v := by
  cases hd : s.blueBytes n with
  | some d => exact ⟨d, rfl⟩
  | none => obtain ⟨i, hi, hn⟩ := State.blueBytes_eq_none.1 hd; exact absurd hn (h i hi)

/-- The key bytes a command reads cipher as the whole key does (R125). -/
theorem State.applyKey_keyBytes {s : State} {d k k' : List Byte} (hk : s.KeyIs k d.length)
    (h : s.keyBytes d.length = some k') : applyKey d k' = applyKey d k := by
  obtain ⟨hl, hr⟩ := State.keyBytes_eq_some.1 h
  refine applyKey_congr hk.1 hl fun i hi => ?_
  have := (hr i hi).symm.trans (hk.2 i hi)
  simpa using this

/-! ### What the writes leave -/

theorem State.writeData_read {s : State} {bs : List Byte} {i : Nat} (h : i < bs.length) :
    (s.writeData bs).mem.read (dataAddr i) = some (bs.getD i 0) := by
  rw [State.writeData_mem, ← dataAddr_add i]; exact Memory.read_writeEvery Nat.one_pos h

theorem State.writeData_frame {s : State} {bs : List Byte} {a : Nat} (h : ¬ inData bs.length a) :
    (s.writeData bs).mem.read a = s.mem.read a := by
  rw [State.writeData_mem]
  exact Memory.read_writeEvery_of_ne fun i hi he => h ⟨i, hi, by rw [he, dataAddr_add]⟩

theorem State.writeBlue_read {s : State} {bs : List Byte} {p : Nat} (h : p < bs.length) :
    (s.writeBlue bs).mem.read (blueAddr p) = some (bs.getD p 0) := by
  rw [State.writeBlue_mem, ← blueAddr_add p]; exact Memory.read_writeEvery (by decide) h

theorem State.writeBlue_frame {s : State} {bs : List Byte} {a : Nat} (h : ¬ inBlue bs.length a) :
    (s.writeBlue bs).mem.read a = s.mem.read a := by
  rw [State.writeBlue_mem]
  exact Memory.read_writeEvery_of_ne fun i hi he => h ⟨i, hi, by rw [he, blueAddr_add]⟩

/-! ### The inversion lemmas -/

theorem execNop_eq (s : State) : exec .nop s = .next s.finish := rfl

/-- CIPHER aborts, or has an empty key and does nothing, or XORs DATA[0:N]. -/
theorem execCipher_next {s t : State} (h : exec .cipher s = .next t) :
    (∃ e, e ≠ .none ∧ t = s.abort e) ∨ (s.NOk ∧ s.KOk ∧ s.lenK = 0 ∧ t = s.finish) ∨
      (s.NOk ∧ s.KOk ∧ 0 < s.lenK ∧ ∃ d k, s.dataBytes s.lenN = some d ∧ s.keyBytes s.lenN = some k ∧
        t = (s.writeData (applyKey d k)).usedDatapath.finish) := by
  rcases validated_cases [s.checkN, s.checkK] s (cipherData s) with ⟨e, he, hv⟩ | ⟨he, hv⟩
  · rw [exec, execCipher, hv] at h
    exact .inl ⟨e, firstError_ne_none he (by simp [checkN_ne, checkK_ne]), by injection h with h; exact h.symm⟩
  · rw [exec, execCipher, hv] at h
    simp only [firstError_eq_none_iff, List.mem_cons, List.not_mem_nil, or_false, forall_eq_or_imp, forall_eq,
      checkN_eq_none, checkK_eq_none] at he
    unfold cipherData at h
    split at h
    · rename_i h0
      exact .inr (.inl ⟨he.1, he.2, h0, by injection h with h; exact h.symm⟩)
    · rename_i h0
      obtain ⟨d, hd, h⟩ := needBytes_eq_next.1 h
      obtain ⟨k, hk, h⟩ := needBytes_eq_next.1 h
      exact .inr (.inr ⟨he.1, he.2, by omega, d, k, hd, hk, by injection h with h; exact h.symm⟩)

theorem embedBytes_next {bs : List Byte} {s t : State} (h : embedBytes bs s = .next t) :
    ∃ v, s.blueBytes (8 * bs.length) = some v ∧
      t = (s.writeBlue (List.zipWith insertBit v (bytesToBits bs))).usedDatapath.finish := by
  obtain ⟨v, hv, h⟩ := needBytes_eq_next.1 h
  exact ⟨v, hv, by injection h with h; exact h.symm⟩

/-- EMBED aborts, or inserts the bits of DATA[0:N]. -/
theorem execEmbed_next {s t : State} (h : exec .embed s = .next t) :
    (∃ e, e ≠ .none ∧ t = s.abort e) ∨
      (s.DimOk ∧ s.NOk ∧ 8 * s.lenN ≤ s.cap ∧ ∃ d v, s.dataBytes s.lenN = some d ∧
        s.blueBytes (8 * s.lenN) = some v ∧
        t = (s.writeBlue (List.zipWith insertBit v (bytesToBits d))).usedDatapath.finish) := by
  rcases validated_cases [s.checkDim, s.checkN, s.checkCapacity s.lenN] s
    (needBytes (s.dataBytes s.lenN) fun d => embedBytes d s) with ⟨e, he, hv⟩ | ⟨he, hv⟩
  · rw [exec, execEmbed, hv] at h
    exact .inl ⟨e, firstError_ne_none he (by simp [checkDim_ne, checkN_ne, checkCapacity_ne]),
      by injection h with h; exact h.symm⟩
  · rw [exec, execEmbed, hv] at h
    simp only [firstError_eq_none_iff, List.mem_cons, List.not_mem_nil, or_false, forall_eq_or_imp, forall_eq,
      checkDim_eq_none, checkN_eq_none, checkCapacity_eq_none] at he
    obtain ⟨d, hd, h⟩ := needBytes_eq_next.1 h
    obtain ⟨v, hv, ht⟩ := embedBytes_next h
    rw [(State.dataBytes_eq_some.1 hd).1] at hv
    exact .inr ⟨he.1, he.2.1, he.2.2, d, v, hd, hv, ht⟩

/-- RECOVER aborts, or writes the bytes the window's channel bits spell. -/
theorem execRecover_next {s t : State} (h : exec .recover s = .next t) :
    (∃ e, e ≠ .none ∧ t = s.abort e) ∨
      (s.DimOk ∧ s.MOk ∧ ∃ v, s.blueBytes s.nbits = some v ∧
        t = (s.writeRecovered (bitsToBytes (v.map channelBit))).usedDatapath.finish) := by
  rcases validated_cases [s.checkDim, s.checkM] s
    (recoverBytes s fun bs => .next (s.writeRecovered bs).usedDatapath.finish) with ⟨e, he, hv⟩ | ⟨he, hv⟩
  · rw [exec, execRecover, hv] at h
    exact .inl ⟨e, firstError_ne_none he (by simp [checkDim_ne, checkM_ne]), by injection h with h; exact h.symm⟩
  · rw [exec, execRecover, hv] at h
    simp only [firstError_eq_none_iff, List.mem_cons, List.not_mem_nil, or_false, forall_eq_or_imp, forall_eq,
      checkDim_eq_none, checkM_eq_none] at he
    obtain ⟨v, hv, h⟩ := needBytes_eq_next.1 h
    exact .inr ⟨he.1, he.2, v, hv, by injection h with h; exact h.symm⟩

/-- CLEAR aborts, or clears the channel bit of every pixel. -/
theorem execClear_next {s t : State} (h : exec .clear s = .next t) :
    (∃ e, e ≠ .none ∧ t = s.abort e) ∨
      (s.DimOk ∧ ∃ v, s.blueBytes s.cap = some v ∧ t = (s.writeBlue (v.map clearBit)).usedDatapath.finish) := by
  rcases validated_cases [s.checkDim] s
    (needBytes (s.blueBytes s.cap) fun v => .next (s.writeBlue (v.map clearBit)).usedDatapath.finish)
    with ⟨e, he, hv⟩ | ⟨he, hv⟩
  · rw [exec, execClear, hv] at h
    exact .inl ⟨e, firstError_ne_none he (by simp [checkDim_ne]), by injection h with h; exact h.symm⟩
  · rw [exec, execClear, hv] at h
    simp only [firstError_eq_none_iff, List.mem_cons, List.not_mem_nil, or_false, forall_eq, checkDim_eq_none] at he
    obtain ⟨v, hv, h⟩ := needBytes_eq_next.1 h
    exact .inr ⟨he, v, hv, by injection h with h; exact h.symm⟩

/-- HIDE aborts, or inserts the bits of the framed payload. -/
theorem execHide_next {s t : State} (h : exec .hide s = .next t) :
    (∃ e, e ≠ .none ∧ t = s.abort e) ∨
      (s.DimOk ∧ s.NOk ∧ s.KOk ∧ 8 * (s.lenN + 6) ≤ s.cap ∧ ∃ d k v, s.dataBytes s.lenN = some d ∧
        s.keyBytes s.lenN = some k ∧ s.blueBytes (8 * (s.lenN + 6)) = some v ∧
        t = (s.writeBlue (List.zipWith insertBit v (bytesToBits (frame d k)))).usedDatapath.finish) := by
  rcases validated_cases [s.checkDim, s.checkN, s.checkK, s.checkCapacity (s.lenN + sentinel.length)] s
    (needBytes (s.dataBytes s.lenN) fun d => needBytes (s.keyBytes s.lenN) fun k => embedBytes (frame d k) s)
    with ⟨e, he, hv⟩ | ⟨he, hv⟩
  · rw [exec, execHide, hv] at h
    exact .inl ⟨e, firstError_ne_none he (by simp [checkDim_ne, checkN_ne, checkK_ne, checkCapacity_ne]),
      by injection h with h; exact h.symm⟩
  · rw [exec, execHide, hv] at h
    simp only [firstError_eq_none_iff, List.mem_cons, List.not_mem_nil, or_false, forall_eq_or_imp, forall_eq,
      checkDim_eq_none, checkN_eq_none, checkK_eq_none, checkCapacity_eq_none, sentinel_length] at he
    obtain ⟨d, hd, h⟩ := needBytes_eq_next.1 h
    obtain ⟨k, hk, h⟩ := needBytes_eq_next.1 h
    obtain ⟨v, hv, ht⟩ := embedBytes_next h
    rw [frame_length, (State.dataBytes_eq_some.1 hd).1] at hv
    exact .inr ⟨he.1, he.2.1, he.2.2.1, he.2.2.2, d, k, v, hd, hk, hv, ht⟩

/-- EXTRACT aborts, or keeps the recovered bytes raw (NOT_FOUND), or deciphers the prefix (FOUND). -/
theorem execExtract_next {s t : State} (h : exec .extract s = .next t) :
    (∃ e, e ≠ .none ∧ t = s.abort e) ∨
      (s.DimOk ∧ s.KOk ∧ s.MOk ∧ ∃ v bs, s.blueBytes s.nbits = some v ∧ bs = bitsToBytes (v.map channelBit) ∧
        ((findSentinel bs = none ∧ t = ((s.writeRecovered bs).writeResult none).usedDatapath.finish) ∨
          ∃ L k, findSentinel bs = some L ∧ s.keyBytes L = some k ∧
            t = ((s.writeRecovered (applyKey (bs.take L) k ++ bs.drop L)).writeResult (some L)).usedDatapath.finish)) := by
  rcases validated_cases [s.checkDim, s.checkK, s.checkM] s (recoverBytes s (extractBytes s))
    with ⟨e, he, hv⟩ | ⟨he, hv⟩
  · rw [exec, execExtract, hv] at h
    exact .inl ⟨e, firstError_ne_none he (by simp [checkDim_ne, checkK_ne, checkM_ne]),
      by injection h with h; exact h.symm⟩
  · rw [exec, execExtract, hv] at h
    simp only [firstError_eq_none_iff, List.mem_cons, List.not_mem_nil, or_false, forall_eq_or_imp, forall_eq,
      checkDim_eq_none, checkK_eq_none, checkM_eq_none] at he
    obtain ⟨v, hv, h⟩ := needBytes_eq_next.1 h
    refine .inr ⟨he.1, he.2.1, he.2.2, v, _, hv, rfl, ?_⟩
    unfold extractBytes at h
    split at h
    · rename_i hf
      exact .inl ⟨hf, by injection h with h; exact h.symm⟩
    · rename_i L hf
      obtain ⟨k, hk, h⟩ := needBytes_eq_next.1 h
      exact .inr ⟨L, k, hf, hk, by injection h with h; exact h.symm⟩

end Sys2Proof.Machine
end

