-- ==== Sys2Proof/Laws/Complete.lean ====
section
/-! SUPPORT. What each command runs once its checks pass, the abort when one fails, and what the bits it embeds and the
bytes it recovers are. -/

namespace Sys2Proof.Machine

/-! ### The checks -/

theorem validated_ok {cs : List (Option ErrCode)} {s : State} {body : Host.Outcome State Fault Refusal}
    (h : firstError cs = none) : validated cs s body = body := by
  simp [validated, h]

theorem validated_err {cs : List (Option ErrCode)} {s : State} {body : Host.Outcome State Fault Refusal} {e : ErrCode}
    (h : firstError cs = some e) : validated cs s body = .next (s.endsWith e) := by
  simp only [validated, h]; rfl

theorem State.abort_eq (s : State) (e : ErrCode) : s.abort e = s.endsWith e := rfl

theorem State.finish_eq (s : State) : s.finish = s.endsWith .none := rfl

theorem checkDim_bad {s : State} (h : ¬ s.DimOk) : s.checkDim = some .dimRange := by
  unfold State.checkDim; exact if_pos (by unfold State.DimOk at h; omega)

theorem checkN_bad {s : State} (h : ¬ s.NOk) : s.checkN = some .lenRange := by
  unfold State.checkN; exact if_pos (by unfold State.NOk at h; omega)

theorem checkK_bad {s : State} (h : ¬ s.KOk) : s.checkK = some .lenRange := by
  unfold State.checkK; exact if_pos (by unfold State.KOk at h; omega)

theorem checkM_bad {s : State} (h : ¬ s.MOk) : s.checkM = some .lenRange := by
  unfold State.checkM; exact if_pos (by unfold State.MOk at h; omega)

theorem checkCapacity_bad {s : State} {n : Nat} (h : s.cap < 8 * n) : s.checkCapacity n = some .capacityExceeded := by
  unfold State.checkCapacity; exact if_pos (by omega)

/-! ### The command past its checks -/

theorem execCipher_pass {s : State} (hN : s.NOk) (hK : s.KOk) : exec .cipher s = cipherData s := by
  simp only [exec, execCipher]
  exact validated_ok (by simp [(checkN_eq_none s).2 hN, (checkK_eq_none s).2 hK])

theorem execEmbed_pass {s : State} (hD : s.DimOk) (hN : s.NOk) (hc : 8 * s.lenN ≤ s.cap) :
    exec .embed s = needBytes (s.dataBytes s.lenN) fun d => embedBytes d s := by
  simp only [exec, execEmbed]
  exact validated_ok (by simp [(checkDim_eq_none s).2 hD, (checkN_eq_none s).2 hN, (checkCapacity_eq_none s _).2 hc])

theorem execRecover_pass {s : State} (hD : s.DimOk) (hM : s.MOk) :
    exec .recover s = recoverBytes s fun bs => .next (s.writeRecovered bs).usedDatapath.finish := by
  simp only [exec, execRecover]
  exact validated_ok (by simp [(checkDim_eq_none s).2 hD, (checkM_eq_none s).2 hM])

theorem execClear_pass {s : State} (hD : s.DimOk) :
    exec .clear s =
      needBytes (s.blueBytes s.cap) fun v => .next (s.writeBlue (v.map clearBit)).usedDatapath.finish := by
  simp only [exec, execClear]
  exact validated_ok (by simp [(checkDim_eq_none s).2 hD])

theorem execHide_pass {s : State} (hD : s.DimOk) (hN : s.NOk) (hK : s.KOk) (hc : 8 * (s.lenN + 6) ≤ s.cap) :
    exec .hide s = needBytes (s.dataBytes s.lenN) fun d =>
      needBytes (s.keyBytes s.lenN) fun k => embedBytes (frame d k) s := by
  simp only [exec, execHide]
  exact validated_ok (by
    simp [(checkDim_eq_none s).2 hD, (checkN_eq_none s).2 hN, (checkK_eq_none s).2 hK, (checkCapacity_eq_none s _).2 hc])

theorem execExtract_pass {s : State} (hD : s.DimOk) (hK : s.KOk) (hM : s.MOk) :
    exec .extract s = recoverBytes s (extractBytes s) := by
  simp only [exec, execExtract]
  exact validated_ok (by simp [(checkDim_eq_none s).2 hD, (checkK_eq_none s).2 hK, (checkM_eq_none s).2 hM])

/-! ### Bytes that are not written -/

theorem State.dataBytes_unwritten {s : State} {n : Nat} (h : ¬ s.DataWritten n) : s.dataBytes n = none := by
  rw [State.dataBytes_eq_none]; simpa [State.DataWritten] using h

theorem State.keyBytes_unwritten {s : State} {n : Nat} (h : ¬ s.KeyWritten (min n s.lenK)) : s.keyBytes n = none := by
  rw [State.keyBytes_eq_none]
  simp only [State.KeyWritten, not_forall, not_not] at h
  obtain ⟨i, hi, hn⟩ := h
  exact ⟨i, hi, hn⟩

theorem State.blueBytes_unwritten {s : State} {n : Nat} (h : ¬ s.BlueWritten n) : s.blueBytes n = none := by
  rw [State.blueBytes_eq_none]; simpa [State.BlueWritten] using h

/-! ### Embedded bits -/

/-- Embedding that has its pixels: the memory it leaves. -/
theorem embedBytes_ok {s : State} {bs v : List Byte} (hv : s.blueBytes (8 * bs.length) = some v) :
    embedBytes bs s = .next (s.completes (s.writeBlue (List.zipWith insertBit v (bytesToBits bs))).mem) := by
  simp only [embedBytes, hv, needBytes_some]; rfl

/-- Each embedded pixel (R143). -/
theorem State.embedded_read {s : State} {bs v : List Byte} (hv : s.blueBytes (8 * bs.length) = some v) {t : Nat}
    (ht : t < 8 * bs.length) :
    (s.writeBlue (List.zipWith insertBit v (bytesToBits bs))).mem.read (blueAddr t) =
      some (insertBit (v.getD t 0) (bitAt bs t)) := by
  obtain ⟨vl, _⟩ := State.blueBytes_eq_some.1 hv
  rw [State.writeBlue_read (by simp; omega), getD_zipWith (x := 0) (y := false) (by omega) (by simp; omega),
    bytesToBits_getD ht]

/-- `insertBit` of a stream bit, in the spec's own terms (R110, R143). -/
theorem insertBit_bitAt (v : Byte) (bs : List Byte) (t : Nat) :
    insertBit v (bitAt bs t) = (v &&& 0xFE) ||| ((bs.getD (t / 8) 0 >>> (7 - t % 8)) &&& 1) := by
  unfold bitAt; exact insertBit_bit _ _ (by omega)

/-! ### Recovered bytes -/

theorem recovered_length {s : State} {v : List Byte} (hv : s.blueBytes s.nbits = some v) :
    (bitsToBytes (v.map channelBit)).length = s.recovered := by
  simp [(State.blueBytes_eq_some.1 hv).1, State.recovered]

theorem recovered_bit {s : State} {v : List Byte} (hv : s.blueBytes s.nbits = some v) {i j : Nat}
    (hi : i < s.recovered) (hj : j < 8) :
    s.blue (8 * i + j) = some (v.getD (8 * i + j) 0) ∧
      ((bitsToBytes (v.map channelBit)).getD i 0).getLsbD (7 - j) = (v.getD (8 * i + j) 0).getLsbD 0 := by
  obtain ⟨vl, vr⟩ := State.blueBytes_eq_some.1 hv
  have hlt : 8 * i + j < s.nbits := by unfold State.recovered at hi; omega
  refine ⟨vr _ hlt, ?_⟩
  rw [bitsToBytes_getD (by simp [vl]; exact hi), byteAt_getLsbD _ _ hj, getD_map (x := 0) (by omega), channelBit_eq]

/-- What the window spells is what is recovered from it. -/
theorem recovered_eq {s : State} {bs v : List Byte} (hb : s.WindowSpells bs) (hv : s.blueBytes s.nbits = some v) :
    bitsToBytes (v.map channelBit) = bs := by
  refine eq_of_getD (x := 0) (by rw [recovered_length hv, hb.1]) fun i hi => byte_ext fun j hj => ?_
  rw [recovered_length hv] at hi
  obtain ⟨h1, h2⟩ := recovered_bit hv hi hj
  have := hb.2 i hi j hj
  rw [h1] at this
  simp only [Option.map_some, Option.some.injEq] at this
  rw [h2, this]

/-- R bytes fit DATA when M does (R146). -/
theorem State.recovered_le {s : State} (h : s.MOk) : s.recovered ≤ s.params.dataBytes := by
  unfold State.recovered State.nbits; unfold State.MOk at h; omega

/-- A found sentinel lies inside the bytes searched (R132). -/
theorem findSentinel_le {bs : List Byte} {L : Nat} (h : findSentinel bs = some L) : L + 6 ≤ bs.length := by
  unfold findSentinel at h
  have := List.mem_of_find?_eq_some h
  simp at this
  omega

/-- The key bytes a command reads for `n` bytes cipher `n` bytes as the key does. -/
theorem State.KeyIs.bytes {s : State} {k : List Byte} {n : Nat} (hk : s.KeyIs k n) :
    ∃ k', s.keyBytes n = some k' ∧ ∀ d : List Byte, d.length = n → applyKey d k' = applyKey d k := by
  obtain ⟨k', hk'⟩ := State.keyBytes_of_written (s := s) (n := n) (fun i hi => by rw [hk.2 i hi]; simp)
  refine ⟨k', hk', fun d hd => ?_⟩
  subst hd
  exact State.applyKey_keyBytes hk hk'

/-! ### What a command does to memory -/

/-- Memory is as it was, or a run of DATA that fits is written, or the blue bytes of written pixels are rewritten with
their bits [7:1] kept. -/
theorem exec_memory {i : Instr} {s t : State} (h : exec i s = .next t) :
    t.mem = s.mem ∨
    (i ∈ [Instr.cipher, .recover, .extract] ∧
      ∃ bs : List Byte, bs.length ≤ s.params.dataBytes ∧ t.mem = (s.writeData bs).mem) ∨
    (i ∈ [Instr.embed, .clear, .hide] ∧ ∃ (v : List Byte) (g : Nat → Byte → Byte),
      s.blueBytes v.length = some v ∧ (∀ p b, g p b &&& 0xFE = b &&& 0xFE) ∧
      ∃ w : List Byte, w.length = v.length ∧ (∀ p < v.length, w.getD p 0 = g p (v.getD p 0)) ∧
        t.mem = (s.writeBlue w).mem) := by
  cases i
  · cases h; exact .inl rfl
  · rcases execCipher_next h with ⟨e, _, rfl⟩ | ⟨_, _, _, rfl⟩ | ⟨hN, _, _, d, k, hd, _, rfl⟩
    · exact .inl rfl
    · exact .inl rfl
    · exact .inr (.inl ⟨by simp, applyKey d k, by
        rw [applyKey_length, (State.dataBytes_eq_some.1 hd).1]; exact hN, rfl⟩)
  · rcases execEmbed_next h with ⟨e, _, rfl⟩ | ⟨_, _, _, d, v, hd, hv, rfl⟩
    · exact .inl rfl
    · have hl := (State.blueBytes_eq_some.1 hv).1
      have hdl := (State.dataBytes_eq_some.1 hd).1
      refine .inr (.inr ⟨by simp, v, fun p b => insertBit b (bitAt d p), by rw [hl]; exact hv,
        fun p b => insertBit_high _ _, _, ?_, ?_, rfl⟩)
      · simp; omega
      · intro p hp
        rw [getD_zipWith (x := 0) (y := false) hp (by simp; omega), bytesToBits_getD (by omega)]
  · rcases execRecover_next h with ⟨e, _, rfl⟩ | ⟨_, hM, v, hv, rfl⟩
    · exact .inl rfl
    · exact .inr (.inl ⟨by simp, _, by rw [recovered_length hv]; exact State.recovered_le hM, rfl⟩)
  · rcases execClear_next h with ⟨e, _, rfl⟩ | ⟨_, v, hv, rfl⟩
    · exact .inl rfl
    · have hl := (State.blueBytes_eq_some.1 hv).1
      exact .inr (.inr ⟨by simp, v, fun p b => clearBit b, by rw [hl]; exact hv, fun p b => clearBit_high _, _,
        by simp, fun p hp => getD_map hp, rfl⟩)
  · rcases execHide_next h with ⟨e, _, rfl⟩ | ⟨_, _, _, _, d, k, v, hd, _, hv, rfl⟩
    · exact .inl rfl
    · have hl := (State.blueBytes_eq_some.1 hv).1
      have hdl := (State.dataBytes_eq_some.1 hd).1
      refine .inr (.inr ⟨by simp, v, fun p b => insertBit b (bitAt (frame d k) p), by rw [hl]; exact hv,
        fun p b => insertBit_high _ _, _, ?_, ?_, rfl⟩)
      · simp; omega
      · intro p hp
        rw [getD_zipWith (x := 0) (y := false) hp (by simp; omega), bytesToBits_getD (by rw [frame_length]; omega)]
  · rcases execExtract_next h with ⟨e, _, rfl⟩ | ⟨_, _, hM, v, bs, hv, hbs, ⟨_, rfl⟩ | ⟨L, k, hf, _, rfl⟩⟩
    · exact .inl rfl
    · exact .inr (.inl ⟨by simp, bs, by rw [hbs, recovered_length hv]; exact State.recovered_le hM, rfl⟩)
    · refine .inr (.inl ⟨by simp, _, ?_, rfl⟩)
      have := findSentinel_le hf
      have hl : (applyKey (bs.take L) k ++ bs.drop L).length = s.recovered := by
        rw [← recovered_length hv, ← hbs]; simp; omega
      rw [hl]; exact State.recovered_le hM

end Sys2Proof.Machine
end

