-- ==== Sys2Proof/Laws/PerInstr.lean ====
section
/-! SUPPORT. The statement made of each command as syntax, one lemma per constructor. -/

namespace Sys2Proof.Laws.Encoding

open Sys2Proof Sys2Proof.Machine

/-- A command is well formed (R91), its word is well formed and holds its opcode (R90, R92, R93), and the four bytes of its
word, in the bus's order (R64), decode to it with nothing left over, and to too little with one byte fewer (R90, R94). -/
def Statement (i : Instr) : Prop :=
  i.wf = true ∧ cmdWordWf (encode i) = true ∧ opField (encode i) = opOf i ∧
    decodeBytes (encodeBytes i) = .word (.cmd i) [] ∧ decodeBytes (encodeBytes i).tail = .tooShort ∧
    decodeTableWord 32 (encode i).toNat = some i

theorem nop : Statement .nop := by unfold Statement; decide
theorem cipher : Statement .cipher := by unfold Statement; decide
theorem embed : Statement .embed := by unfold Statement; decide
theorem recover : Statement .recover := by unfold Statement; decide
theorem clear : Statement .clear := by unfold Statement; decide
theorem hide : Statement .hide := by unfold Statement; decide
theorem extract : Statement .extract := by unfold Statement; decide

end Sys2Proof.Laws.Encoding
end

