-- ==== Sys2Proof/Laws/Step.lean ====
section
/-! SUPPORT. What one step is at the host's turn and at the engine's, what an access reaches, and the bus's byte order. -/

namespace Sys2Proof.Machine

/-! ### Whose turn it is -/

theorem State.tick_idle {s : State} (h : s.phase = .idle) : s.tick = s := by unfold State.tick; rw [h]

theorem State.tick_busy {s : State} (h : s.phase = .busy) : s.tick = { s with wait := s.wait - 1 } := by
  unfold State.tick; rw [h]

@[simp] theorem State.tick_readReg (s : State) (r : Option Reg) : s.tick.readReg r = s.readReg r := by
  unfold State.tick; split <;> rfl

/-- A register read does not see the host's pending transactions. -/
theorem State.readReg_host (s : State) (h : List HostOp) (r : Option Reg) :
    State.readReg { s with host := h } r = s.readReg r := by
  cases r with
  | none => rfl
  | some r => cases r <;> rfl

/-- At the engine's turn the step completes the command. -/
theorem step_engineTurn {s : State} (h : s.EngineTurn) : step s = complete s := by
  unfold step; rw [h.1, h.2]

/-- At the host's turn the step is the host's oldest transaction, after the tick. -/
theorem step_hostTurn {s : State} {op : HostOp} {rest : List HostOp} (h : s.HostTurn) (hh : s.host = op :: rest) :
    step s = hostOp op { s.tick with host := rest } := by
  have h1 : step s = hostMove s.tick := by
    unfold step
    rcases hp : s.phase with _ | _
    · rw [State.tick_idle hp]
    · rcases h with h | h
      · rw [hp] at h; cases h
      · cases hw : s.wait with
        | zero => omega
        | succ n => rfl
  rw [h1]; unfold hostMove; rw [State.tick_host, hh]

theorem step_idleTurn {s : State} {op : HostOp} {rest : List HostOp} (h : s.phase = .idle) (hh : s.host = op :: rest) :
    step s = hostOp op { s with host := rest } := by
  rw [step_hostTurn (.inl h) hh, State.tick_idle h]

/-- A run of `k + 1` steps is a step and a run of `k`. -/
theorem run_succ (k : Nat) (s : State) :
    Host.Core.run core (k + 1) s = match step s with
      | .next s' => Host.Core.run core k s'
      | .fault r => .fault r
      | .refused r => .refused r := by
  have h : ∀ s : core.State, Host.Core.run core (k + 1) s = match core.step s with
      | .next s' => Host.Core.run core k s'
      | .fault r => .fault r
      | .refused r => .refused r := fun s => by rw [Host.Core.run]; cases core.step s <;> rfl
  refine (h s).trans ?_
  show (match step s with
    | .next s' => Host.Core.run core k s'
    | .fault r => .fault r
    | .refused r => .refused r) = _
  cases step s <;> rfl

/-- A run of one step is a step. -/
theorem run_one (s : State) : Host.Core.run core 1 s = step s := by
  rw [run_succ]; cases step s <;> rfl

/-- A run that answers `t`, and one step more, is the step from `t`. -/
theorem run_then_step {k : Nat} {s t : State} (h : Host.Core.run core k s = .next t) :
    Host.Core.run core (k + 1) s = step t := by
  induction k generalizing s with
  | zero => rw [run_one]; cases h; rfl
  | succ k ih =>
    rw [run_succ] at h ⊢
    cases hs : step s with
    | next s' => rw [hs] at h; exact ih h
    | fault f => rw [hs] at h; cases h
    | refused f => rw [hs] at h; cases h

/-! ### What an access reaches -/

theorem AccessSize.bytes_cases (n : AccessSize) : n.bytes = 1 ∨ n.bytes = 2 ∨ n.bytes = 4 := by
  cases n <;> simp [AccessSize.bytes]

theorem AccessSize.bytes_eq_four (n : AccessSize) : n.bytes = 4 ↔ n = .word := by
  cases n <;> simp [AccessSize.bytes]

theorem insideBuffer_iff {p : Params} {a n : Nat} : insideBuffer p a n = true ↔
    (0x1000 ≤ a ∧ a + n ≤ 0x1000 + p.keyBytes) ∨ (0x10000 ≤ a ∧ a + n ≤ 0x10000 + p.dataBytes) ∨
      (0x1000000 ≤ a ∧ a + n ≤ 0x1000000 + 4 * p.maxPixels) := by
  simp only [insideBuffer, insidePart, Bool.or_eq_true, Bool.and_eq_true, decide_eq_true_eq, or_assoc]
  rfl

theorem target_reg {p : Params} {a : Nat} (h1 : a % 4 = 0) (h2 : a < 0x1000) : target p a 4 = .reg (regAt a) := by
  unfold target; simp [h1, keyBase, h2]

theorem target_buffer {p : Params} {a : Nat} {n : AccessSize} (h : a % n.bytes = 0)
    (hb : (0x1000 ≤ a ∧ a + n.bytes ≤ 0x1000 + p.keyBytes) ∨ (0x10000 ≤ a ∧ a + n.bytes ≤ 0x10000 + p.dataBytes) ∨
      (0x1000000 ≤ a ∧ a + n.bytes ≤ 0x1000000 + 4 * p.maxPixels)) : target p a n.bytes = .buffer := by
  unfold target
  rw [if_neg (by simpa using h), if_neg (by unfold keyBase; omega), if_pos (insideBuffer_iff.2 hb)]

/-- An access that reaches a buffer lies inside one. -/
theorem insideBuffer_of_target {p : Params} {a n : Nat} (h : target p a n = .buffer) : insideBuffer p a n = true := by
  unfold target at h
  split at h
  · cases h
  · split at h
    · split at h <;> cases h
    · split at h
      · assumption
      · cases h

/-- A register write. -/
theorem hostWrite_reg {s : State} {a v : Word} {r : Option Reg} (h1 : a.toNat % 4 = 0) (h2 : a.toNat < 0x1000)
    (hr : regAt a.toNat = r) : hostWrite a .word v s = .next (s.writeReg r v) := by
  unfold hostWrite
  rw [show AccessSize.word.bytes = 4 from rfl, target_reg h1 h2, hr]

/-! ### The byte order -/

@[simp] theorem leBytes_length (n : Nat) (v : Word) : (leBytes n v).length = n := by simp [leBytes]

/-- Byte lane `j` of the word of `bs` is `bs[j]` (R64). -/
theorem leWord_byte (bs : List Byte) (h : bs.length ≤ 4) (j : Nat) (hj : j < bs.length) :
    (leWord bs >>> (8 * j)).setWidth 8 = bs.getD j 0 := by
  induction bs generalizing j with
  | nil => simp at hj
  | cons b bs ih =>
    cases j with
    | zero =>
      simp only [leWord, List.getD_cons_zero, Nat.mul_zero]
      exact BitVec.eq_of_getLsbD_eq fun i hi => by simp [hi]
    | succ j =>
      have h4 : bs.length + 1 ≤ 4 := by simpa using h
      have hj' : j < bs.length := by simpa using hj
      rw [List.getD_cons_succ, ← ih (by omega) j hj']
      simp only [leWord]
      refine BitVec.eq_of_getLsbD_eq fun i hi => ?_
      simp [hi, show 8 * (j + 1) + i < 32 by omega, show 8 ≤ 8 * (j + 1) + i by omega,
        show ¬ 8 * (j + 1) + i < 8 by omega]
      congr 1; omega

/-- Lanes above the bytes read are 0 (R67). -/
theorem leWord_lt (bs : List Byte) (h : bs.length ≤ 4) : (leWord bs).toNat < 2 ^ (8 * bs.length) := by
  induction bs with
  | nil => simp [leWord]
  | cons b bs ih =>
    have hi := ih (by simp at h; omega)
    simp only [leWord, BitVec.toNat_or, BitVec.toNat_setWidth, BitVec.toNat_shiftLeft, List.length_cons]
    apply Nat.or_lt_two_pow
    · calc b.toNat % 2 ^ 32 ≤ b.toNat := Nat.mod_le _ _
        _ < 2 ^ 8 := b.isLt
        _ ≤ _ := Nat.pow_le_pow_right (by norm_num) (by omega)
    · refine lt_of_le_of_lt (Nat.mod_le _ _) ?_
      rw [Nat.shiftLeft_eq, show 8 * (bs.length + 1) = 8 * bs.length + 8 by omega, pow_add]
      exact Nat.mul_lt_mul_of_pos_right hi (by norm_num)

/-! ### The invariant's parts -/

/-- A byte that reads is listed. -/
theorem Memory.mem_of_read {m : Memory} {a : Nat} {b : Byte} (h : m.read a = some b) : (a, b) ∈ m := by
  induction m with
  | nil => cases h
  | cons c m ih =>
    obtain ⟨k, x⟩ := c
    simp only [Memory.read] at h
    split at h
    · rename_i he; subst he; cases h; exact List.mem_cons_self
    · exact List.mem_cons_of_mem _ (ih h)

/-- The invariant reads no other field than these. -/
theorem State.Inv.congr {s t : State} (h : State.Inv s) (h1 : t.params = s.params) (h2 : t.status = s.status)
    (h3 : t.width = s.width) (h4 : t.height = s.height) (h5 : t.payloadLen = s.payloadLen) (h6 : t.keyLen = s.keyLen)
    (h7 : t.maxRecovery = s.maxRecovery) (h8 : t.recovLen = s.recovLen) (h9 : t.foundLen = s.foundLen)
    (h10 : t.phase = s.phase) (h11 : t.snap = s.snap) (h12 : t.mem = s.mem) : State.Inv t where
  legal := by rw [h1]; exact h.legal
  memWf := by rw [h12]; exact h.memWf
  memParts := by rw [h1, h12]; exact h.memParts
  phaseBusy := by rw [h10, h2]; exact h.phaseBusy
  busyClear := by rw [h10, h2, h8, h9]; exact h.busyClear
  busySnap := by rw [h10, h11, h3, h4, h5, h6, h7]; exact h.busySnap
  errClear := by rw [h2, h8]; exact h.errClear
  foundClear := by rw [h2, h9]; exact h.foundClear
  foundFits := by rw [h2, h8, h9]; exact h.foundFits
  recovFits := by rw [h1, h8]; exact h.recovFits

/-- `<buf>+<i>` is the exact sum of R96 wherever the sum is a bus address (R60); past that, log entry 26. -/
theorem bufOffset_toNat {b : Buf} {i : Nat} (h : bufBase b + i < 2 ^ 32) : (bufOffset b i).toNat = bufBase b + i := by
  rw [bufOffset, BitVec.toNat_ofNat, Nat.mod_eq_of_lt h]

/-- Reset memory has the canonical form. -/
theorem State.resetWith_wf (p : Params) : (State.resetWith p).mem.wf = true := rfl

end Sys2Proof.Machine
end

