-- ==== Sys2Proof/Machine/HostView.lean ====
section
/-! DEFINITION. What the host makes of an EXTRACT (60_exceptions.md rules R206, R207). The block does not compute this; it
is here so that a whole hide and extract flow can be closed. -/

namespace Sys2Proof.Machine

/-- The host's tagged result (R207). The text layer is out of scope (00_scope.md rule R7(b)): `found` carries the bytes. -/
inductive HostVerdict where
  | found (text : List Byte)
  | notFound
  | integrityFailure
  | validationError (e : ErrCode)
  deriving DecidableEq, Repr

/-- R207's table, over the host's own validity test (I13, log entry 21). None where no EXTRACT has completed or a byte of
DATA[0:FOUND_LEN] is unwritten. -/
def hostVerdict (utf8Valid : List Byte → Bool) (s : State) : Option HostVerdict :=
  match s.status.err, s.status.result with
  | .none, .none => none
  | .none, .notFound => some .notFound
  | .none, .found =>
    match s.dataBytes s.foundLen.toNat with
    | none => none
    | some bs => some (if utf8Valid bs then .found bs else .integrityFailure)
  | e, _ => some (.validationError e)

end Sys2Proof.Machine
end

