-- ==== Sys2Proof/Tests/Slice0.lean ====
section
/-! SUPPORT. Tests on small states. Every expected value is the spec's own (95_test_vectors.md) or worked out by hand from
the rule named; and for every obligation with hypotheses, a witness that they can be met, at the bounds of each clause. -/

namespace Sys2Proof.Tests

set_option Elab.async false

open Sys2Proof Sys2Proof.Machine

/-! ### Helpers -/

/-- A small legal configuration: KEY_BYTES = 8, DATA_BYTES = 4096, MAX_PIXELS = 128. -/
def small : Params := ⟨8, 4096, 128, 0⟩

/-- KEY, DATA and the blue bytes, from their starts. -/
def bytesAt (key data blue : List Byte) : Memory :=
  Memory.writeEvery pixBytes (Memory.writeEvery 1 (Memory.writeEvery 1 [] (keyAddr 0) key) (dataAddr 0) data)
    (blueAddr 0) blue

/-- A busy engine whose completion is due: the command `i` with S.W, S.H, S.N, S.K, S.M. -/
def due (i : Instr) (w h : BitVec 16) (n k m : Word) (mem : Memory) : State :=
  { State.resetWith small with
    status := ⟨true, false, false, .none, .none⟩
    phase := .busy
    width := w
    height := h
    payloadLen := n
    keyLen := k
    maxRecovery := m
    snap := ⟨encode i, w, h, n, k, m⟩
    mem := mem }

/-- An idle engine with written memory, and a host with one transaction. -/
def idleWith (op : HostOp) (mem : Memory) : State := { State.resetWith small with host := [op], mem := mem }

/-- A busy engine, one host move from its completion, and a host with one transaction. -/
def busyWith (op : HostOp) (mem : Memory) : State :=
  { due .nop 0 0 0 0 0 mem with host := [op], wait := 1 }

/-- The next state, if there is one. -/
def after : Host.Outcome State Fault Refusal → Option State
  | .next t => some t
  | .fault _ => none
  | .refused _ => none

/-- The fault, if there is one. -/
def stopOf : Host.Outcome State Fault Refusal → Option Fault
  | .next _ => none
  | .fault f => some f
  | .refused _ => none

/-- The next state, or the state given. -/
def ran (o : Host.Outcome State Fault Refusal) (s : State) : State := (after o).getD s

theorem ran_eq {o : Host.Outcome State Fault Refusal} {s : State} (h : (after o).isSome = true) : o = .next (ran o s) := by
  cases o with
  | next t => rfl
  | fault f => cases h
  | refused r => cases h

/-- DATA[0:n] and Blue(0..n) of a state. -/
def dataOf (s : State) (n : Nat) : List (Option Byte) := (List.range n).map s.data

@[inherit_doc dataOf]
def bluesOf (s : State) (n : Nat) : List (Option Byte) := (List.range n).map s.blue

/-! ### Well-formedness: an ill-formed term for each check -/

theorem test_wf_word_rsvd : cmdWordWf 0x00000010 = false := by decide
theorem test_wf_word_op : cmdWordWf 0x00000007 = false := by decide
theorem test_wf_word_good : cmdWordWf 0x00000006 = true := by decide
theorem test_wf_instr : [Instr.nop, .cipher, .embed, .recover, .clear, .hide, .extract].all Instr.wf = true := by decide
theorem test_wf_params_key : ¬ Params.Legal ⟨0, 4096, 1, 0⟩ ∧ ¬ Params.Legal ⟨4097, 4096, 1, 0⟩ := by decide
theorem test_wf_params_data : ¬ Params.Legal ⟨1, 4095, 1, 0⟩ ∧ ¬ Params.Legal ⟨1, 0x00FF0001, 1, 0⟩ := by decide
theorem test_wf_params_pix : ¬ Params.Legal ⟨1, 4096, 0, 0⟩ ∧ ¬ Params.Legal ⟨1, 4096, 0x3FC00001, 0⟩ := by decide
theorem test_wf_params_good : Params.reference.Legal ∧ Params.Legal ⟨4096, 0x00FF0000, 0x3FC00000, 0⟩ := by decide
theorem test_wf_host : HostOp.wf (.read 0x01000001 .half) = false ∧ HostOp.wf (.write 0x00010002 .word 0) = false ∧
    HostOp.wf (.write 0x00010002 .half 0) = true ∧ HostOp.wf .poll = true := by decide

/-! ### Decode: words written out bit by bit from R90 and R92 -/

theorem test_decode_nop : decodeWord 0b0000000000000000000000000000_0000#32 = .cmd .nop := by decide
theorem test_decode_cipher : decodeWord 0b0000000000000000000000000000_0001#32 = .cmd .cipher := by decide
theorem test_decode_embed : decodeWord 0b0000000000000000000000000000_0010#32 = .cmd .embed := by decide
theorem test_decode_recover : decodeWord 0b0000000000000000000000000000_0011#32 = .cmd .recover := by decide
theorem test_decode_clear : decodeWord 0b0000000000000000000000000000_0100#32 = .cmd .clear := by decide
theorem test_decode_hide : decodeWord 0b0000000000000000000000000000_0101#32 = .cmd .hide := by decide
theorem test_decode_extract : decodeWord 0b0000000000000000000000000000_0110#32 = .cmd .extract := by decide
/-- 95_test_vectors.md 2.6. -/
theorem test_decode_illegal :
    decodeWord 0x00000007 = .illegal .opReserved ∧ decodeWord 0x0000000F = .illegal .opReserved ∧
    decodeWord 0x00000010 = .illegal .rsvdNonzero ∧ decodeWord 0x80000002 = .illegal .rsvdNonzero ∧
    decodeWord 0xFFFFFFFF = .illegal .rsvdNonzero := by decide
theorem test_decode_bytes : decodeBytes [0x05, 0, 0, 0, 0xAB] = .word (.cmd .hide) [0xAB] ∧
    decodeBytes [0, 0, 0, 0x05] = .word (.illegal .rsvdNonzero) [] ∧ decodeBytes [0x05, 0, 0] = .tooShort := by decide
theorem test_decode_table_word : decodeTableWord 32 6 = some .extract ∧ decodeTableWord 32 7 = none ∧
    decodeTableWord 8 0x105 = some .hide ∧ decodeTableWord 40 0x100000005 = none := by decide
theorem test_mnemonics : ofMnemonic "EXTRACT" = some .extract ∧ ofMnemonic "extract" = none := by decide

/-! ### The datapath: 95_test_vectors.md 2.1, 2.2, 2.3 -/

theorem test_bits : bytesToBits [0xA5, 0x01] =
    [true, false, true, false, false, true, false, true, false, false, false, false, false, false, false, true] := by
  decide
theorem test_bytes : bitsToBytes [true, false, true, false, false, true, false, true, false] = [0xA5] ∧
    bitsToBytes (List.replicate 7 true) = [] := by decide
theorem test_cipher_wraps : applyKey [0x41, 0x42, 0x43, 0x44, 0x45, 0x46, 0x47] [1, 2, 3] =
    [0x40, 0x40, 0x40, 0x45, 0x47, 0x45, 0x46] ∧ applyKey [0x48, 0x69] [] = [0x48, 0x69] := by decide
theorem test_find_overlap :
    findSentinel [0x78, 0x79, 0x24, 0x53, 0x54, 0x4F, 0x50, 0x24, 0x53, 0x54, 0x4F, 0x50, 0x24] = some 2 ∧
    findSentinel [0x24, 0x53, 0x54, 0x4F, 0x50] = none ∧ findSentinel [0x24, 0x73, 0x74, 0x6F, 0x70, 0x24] = none := by
  decide
theorem test_hardware_forms :
    (serialRun [0xA5] 8 datapathStart).1 = bytesToBits [0xA5] ∧
    deserialRun datapathStart [true, false, true, false, false, true, false, true, false] = [0xA5] ∧
    xorRun [1, 2, 3] datapathStart [0x41, 0x42, 0x43, 0x44] = [0x40, 0x40, 0x40, 0x45] ∧
    searchRun [0x23, 0x02, 0x24, 0x53, 0x54, 0x4F, 0x50, 0x24] = some 2 := by decide

/-! ### One command, one step -/

/-- 2.5 H12: NOP leaves STATUS = 0x00000002. -/
theorem test_nop : (ran (step (due .nop 8 8 2 1 8 [])) State.reset).status.toWord = 0x00000002 := by decide +kernel

/-- 2.2: 48 69 with key 6B gives 23 02. -/
def cipherDue : State := due .cipher 0 0 2 1 0 (bytesAt [0x6B] [0x48, 0x69] [])
theorem test_cipher : dataOf (ran (step cipherDue) State.reset) 3 = [some 0x23, some 0x02, none] ∧
    (ran (step cipherDue) State.reset).status.toWord = 0x00000002 := by decide +kernel
/-- 2.2: K = 0 is the identity, and DATA is not read. -/
theorem test_cipher_no_key : (after (step (due .cipher 0 0 2 0 0 []))).isSome = true := by decide +kernel

/-- 2.4: W = 4, H = 2, Blue = FF × 8, DATA[0] = A5 gives FF FE FF FE FE FF FE FF. -/
def embedDue : State := due .embed 4 2 1 0 0 (bytesAt [] [0xA5] (List.replicate 8 0xFF))
theorem test_embed : bluesOf (ran (step embedDue) State.reset) 8 =
    [some 0xFF, some 0xFE, some 0xFF, some 0xFE, some 0xFE, some 0xFF, some 0xFE, some 0xFF] := by decide +kernel
/-- 2.4: W = 7, H = 1, N = 1 is one bit too many. -/
theorem test_embed_capacity :
    (ran (step (due .embed 7 1 1 0 0 embedDue.mem)) State.reset).status.toWord = 0x00000042 := by decide +kernel

/-- P5: 15 pixels of LSB 1 recover one byte FF; the last 7 bits are dropped. -/
def recoverDue : State := due .recover 3 5 0 0 4096 (bytesAt [] [] (List.replicate 15 0x01))
theorem test_recover : dataOf (ran (step recoverDue) State.reset) 2 = [some 0xFF, none] ∧
    (ran (step recoverDue) State.reset).recovLen = 1 := by decide +kernel
/-- 2.4: M > DATA_BYTES is LEN_RANGE. -/
theorem test_recover_len :
    (ran (step (due .recover 3 5 0 0 4097 recoverDue.mem)) State.reset).status.toWord = 0x00000032 := by decide +kernel

/-- 2.4: W = 2, H = 1, Blue = FF 02 gives FE 02, whatever PAYLOAD_LEN and KEY_LEN hold. -/
def clearDue : State := due .clear 2 1 0xFFFFFFFF 0xFFFFFFFF 0 (bytesAt [] [] [0xFF, 0x02, 0xFF])
theorem test_clear : bluesOf (ran (step clearDue) State.reset) 3 = [some 0xFE, some 0x02, some 0xFF] := by decide +kernel
theorem test_clear_empty_image :
    (ran (step (due .clear 0 5 0 0 0 [])) State.reset).status.toWord = 0x00000002 := by decide +kernel

/-- P1: "Hi" with key "k" in an 8×8 image whose blue bytes are 0x31. -/
def hideDue : State := due .hide 8 8 2 1 4096 (bytesAt [0x6B] [0x48, 0x69] (List.replicate 64 0x31))
/-- P1 after step 11: the rows of pixels (0, 0) and (0, 7), DATA unchanged, STATUS. -/
theorem test_hide : (bluesOf (ran (step hideDue) State.reset) 64).take 8 =
      [some 0x30, some 0x30, some 0x31, some 0x30, some 0x30, some 0x30, some 0x31, some 0x31] ∧
    (bluesOf (ran (step hideDue) State.reset) 64).drop 56 =
      [some 0x30, some 0x30, some 0x31, some 0x30, some 0x30, some 0x31, some 0x30, some 0x30] ∧
    dataOf (ran (step hideDue) State.reset) 3 = [some 0x48, some 0x69, none] := by decide +kernel
/-- 2.5 H3. -/
theorem test_hide_capacity :
    (ran (step (due .hide 47 1 0 1 0 [])) State.reset).status.toWord = 0x00000042 := by decide +kernel

/-- P1 step 12: EXTRACT with the bound `m` and the key length `k` on P1's image. -/
def extractDue (k m : Word) : State := due .extract 8 8 2 k m (ran (step hideDue) State.reset).mem
/-- P1 after step 13. -/
theorem test_extract : dataOf (ran (step (extractDue 1 4096)) State.reset) 9 =
      [some 0x48, some 0x69, some 0x24, some 0x53, some 0x54, some 0x4F, some 0x50, some 0x24, none] ∧
    (ran (step (extractDue 1 4096)) State.reset).status.toWord = 0x00000102 ∧
    (ran (step (extractDue 1 4096)) State.reset).recovLen = 8 ∧
    (ran (step (extractDue 1 4096)) State.reset).foundLen = 2 := by decide +kernel
/-- 2.5 H6: R = 7 < 8 bytes, so NOT_FOUND with the raw bytes. -/
theorem test_extract_short : dataOf (ran (step (extractDue 1 7)) State.reset) 8 =
      [some 0x23, some 0x02, some 0x24, some 0x53, some 0x54, some 0x4F, some 0x50, none] ∧
    (ran (step (extractDue 1 7)) State.reset).status.toWord = 0x00000202 := by decide +kernel

/-- R207: P1 ends in a found text, and an aborted command in a validation error. -/
theorem test_verdict :
    hostVerdict (fun _ => true) (ran (step (extractDue 1 4096)) State.reset) = some (.found [0x48, 0x69]) ∧
    hostVerdict (fun _ => false) (ran (step (extractDue 1 4096)) State.reset) = some .integrityFailure ∧
    hostVerdict (fun _ => true) (ran (step (extractDue 1 7)) State.reset) = some .notFound ∧
    hostVerdict (fun _ => true) (ran (step (extractDue 1 4097)) State.reset) = some (.validationError .lenRange) := by
  decide +kernel

/-! ### Error priority: 95_test_vectors.md 2.7, in the small configuration -/

theorem test_dim_before_len :
    (ran (step (due .hide 129 1 0x10000000 0 0 [])) State.reset).status.toWord = 0x00000022 := by decide +kernel
theorem test_len_before_capacity :
    (ran (step (due .hide 8 8 3 9 0 [])) State.reset).status.toWord = 0x00000032 := by decide +kernel
theorem test_cipher_no_dim :
    (ran (step { cipherDue with snap := ⟨1, 65535, 65535, 2, 1, 0⟩ }) State.reset).status.toWord = 0x00000002 := by
  decide +kernel
theorem test_illegal_first :
    (ran (step { due .nop 65535 65535 0 0 0 [] with snap := ⟨0x17, 65535, 65535, 0, 0, 0⟩ }) State.reset).status.toWord =
      0x00000012 := by decide +kernel

/-! ### Registers and the bus: 95_test_vectors.md 2.8 -/

/-- `WR WIDTH, 0x12340064` then `RD WIDTH`. -/
theorem test_width_reserved :
    (ran (step (idleWith (stWR .width 0x12340064) [])) State.reset).readReg (some .width) = 0x00000064 := by
  decide +kernel
theorem test_capacity : State.readReg { State.reset with width := 0x64, height := 0x64 } (some .capacity) = 0x2710 := by
  decide
theorem test_w1c : (Status.w1c ⟨false, true, true, .none, .none⟩ 2).toWord = 4 ∧
    (Status.w1c ⟨false, false, true, .none, .none⟩ 4).toWord = 0 := by decide
/-- A dropped WIDTH write sets OVR; `WR ID` does not. -/
theorem test_overrun :
    (ran (step (busyWith (stWR .width 5) [])) State.reset).status.toWord = 0x5 ∧
    (ran (step (busyWith (stWR .width 5) [])) State.reset).width = 0 ∧
    (ran (step (busyWith (stWR .id 0) [])) State.reset).status.toWord = 0x1 := by decide +kernel
/-- `WW PIX+0, 0xFF312010` puts 0x31 into the blue byte; `WH DATA+0, 0x6948` puts 0x48 first. -/
theorem test_lanes :
    (ran (step (idleWith (stWW .pix 0 (pixelWord 0x10 0x20 0x31 0xFF)) [])) State.reset).blue 0 = some 0x31 ∧
    dataOf (ran (step (idleWith (stWH .data 0 0x6948) [])) State.reset) 3 = [some 0x48, some 0x69, none] ∧
    (ran (step (idleWith (stRW .pix 0) (Memory.writeEvery 1 [] (pixAddr 0) [0x10, 0x20, 0x31, 0xFF])))
      State.reset).readLog = [0xFF312010] := by decide +kernel
/-- The bus errors of 2.8, on the reference configuration. -/
theorem test_bus_errors : target Params.reference 0x1100 1 = .error ∧ target Params.reference 0x2000 1 = .error ∧
    target Params.reference 0x01000001 2 = .error ∧ target Params.reference 0x00010002 4 = .error ∧
    target Params.reference 0x004 1 = .error ∧ target Params.reference 0x01FFFFFC 4 = .buffer ∧
    target Params.reference 0x02000000 1 = .error := by decide
theorem test_system_addr : busOffset ⟨1, 4096, 1, 0x40000000⟩ 0x40001000 = some 0x1000 ∧
    systemAddr ⟨1, 4096, 1, 0x40000000⟩ 0x1000 = 0x40001000 ∧ busOffset ⟨1, 4096, 1, 0x40000000⟩ 0x3FFFFFFF = none := by
  decide

/-! ### Fetch: the word placed is the one the next step runs (95_test_vectors.md 2.6) -/

theorem test_fetch_word : (ran (step (State.reset.withFetchWord 32 0)) State.reset).status.toWord = 0x00000002 ∧
    (ran (step (State.reset.withFetchWord 32 6)) State.reset).status.toWord = 0x00000202 ∧
    (ran (step (State.reset.withFetchWord 32 0x80000002)) State.reset).status.toWord = 0x00000012 := by decide +kernel

/-! ### Witnesses: the hypotheses of each obligation can be met -/

theorem test_witness_DecodeIsTotalAndExact :
    (∃ c : Word, c.toNat = 16 ∧ c.toNat / 16 ≠ 0) ∧
    ∀ n < 8, ∃ c : Word, c.toNat / 16 = 0 ∧ c.toNat % 16 = n :=
  ⟨⟨0x10, by decide⟩, fun n hn => ⟨BitVec.ofNat 32 n, by simp; omega⟩⟩
theorem test_witness_DecodeEncodeBytesAgree : decodeBytes [6, 0, 0, 0] = .word (.cmd .extract) [] := by decide
theorem test_witness_BytesToBitsMsbFirst : 1 < ([0xA5, 0x01] : List Byte).length ∧ 7 < 8 := by decide
theorem test_witness_BitsToBytesDropsPartialGroup : 0 < (List.replicate 15 true).length / 8 ∧ 7 < 8 := by decide
theorem test_witness_ApplyIsRepeatingXor : ([] : List Byte).length = 0 ∧ 0 < ([0x6B] : List Byte).length ∧
    1 < ([0x48, 0x69] : List Byte).length := by decide
theorem test_witness_FindIsLeastSentinel : findSentinel (0x41 :: sentinel) = some 1 ∧ findSentinel [0x41] = none ∧
    findSentinel sentinel = some 0 := by decide
theorem test_witness_TraversalIsIndexOrder : 5 < 3 * 2 ∧ (0 : Nat) < 1 * 1 := by decide

theorem test_witness_CipherXorsData : cipherDue.NOk ∧ cipherDue.KOk ∧ 0 < cipherDue.lenK ∧
    cipherDue.DataWritten cipherDue.lenN ∧ cipherDue.KeyWritten (min cipherDue.lenN cipherDue.lenK) ∧
    0 < cipherDue.lenN ∧ (due .cipher 0 0 4096 0 0 []).NOk ∧ (due .cipher 0 0 4096 0 0 []).KOk ∧
    (due .cipher 0 0 4096 0 0 []).lenK = 0 := by decide +kernel
theorem test_witness_EmbedWritesBits : embedDue.DimOk ∧ embedDue.NOk ∧ 8 * embedDue.lenN = embedDue.cap ∧
    embedDue.DataWritten embedDue.lenN ∧ embedDue.BlueWritten (8 * embedDue.lenN) := by decide +kernel
theorem test_witness_RecoverReadsBits : recoverDue.DimOk ∧ recoverDue.lenM = recoverDue.params.dataBytes ∧
    recoverDue.BlueWritten recoverDue.nbits ∧ recoverDue.recovered = 1 := by decide +kernel
theorem test_witness_ClearZeroesEveryLsb : clearDue.DimOk ∧ clearDue.BlueWritten clearDue.cap ∧ 1 < clearDue.cap := by
  decide +kernel
theorem test_witness_HideWritesFramedBits : hideDue.DimOk ∧ hideDue.NOk ∧ hideDue.KOk ∧
    8 * (hideDue.lenN + 6) = hideDue.cap ∧ hideDue.DataIs [0x48, 0x69] ∧ hideDue.KeyIs [0x6B] hideDue.lenN ∧
    hideDue.BlueWritten (8 * (hideDue.lenN + 6)) := by decide +kernel
theorem test_witness_ExtractFoundDeciphers : (extractDue 1 4096).DimOk ∧ (extractDue 1 4096).KOk ∧
    (extractDue 1 4096).MOk ∧ (extractDue 1 4096).BlueWritten (extractDue 1 4096).nbits ∧
    (extractDue 1 4096).WindowSpells [0x23, 0x02, 0x24, 0x53, 0x54, 0x4F, 0x50, 0x24] ∧
    findSentinel [0x23, 0x02, 0x24, 0x53, 0x54, 0x4F, 0x50, 0x24] = some 2 ∧ (extractDue 1 4096).KeyIs [0x6B] 2 := by
  decide +kernel
theorem test_witness_ExtractNotFoundKeepsRaw : (extractDue 1 7).DimOk ∧ (extractDue 1 7).KOk ∧ (extractDue 1 7).MOk ∧
    (extractDue 1 7).BlueWritten (extractDue 1 7).nbits ∧
    (extractDue 1 7).WindowSpells [0x23, 0x02, 0x24, 0x53, 0x54, 0x4F, 0x50] ∧
    findSentinel [0x23, 0x02, 0x24, 0x53, 0x54, 0x4F, 0x50] = none := by decide +kernel

theorem test_witness_DimRangeAborts : ¬ (due .embed 129 1 0 0 0 []).DimOk ∧ (due .embed 128 1 0 0 0 []).DimOk ∧
    Instr.extract ∈ [Instr.embed, .recover, .clear, .hide, .extract] := by decide
theorem test_witness_LenRangeAborts : (due .hide 8 8 4097 0 4097 []).DimOk ∧ ¬ (due .hide 8 8 4097 0 4097 []).NOk ∧
    ¬ (due .hide 8 8 4097 0 4097 []).MOk ∧ ¬ (due .hide 8 8 0 9 0 []).KOk ∧ (due .hide 8 8 0 9 0 []).DimOk := by decide
theorem test_witness_CapacityExceededAborts : (due .embed 7 1 1 0 0 []).DimOk ∧ (due .embed 7 1 1 0 0 []).NOk ∧
    (due .embed 7 1 1 0 0 []).cap < 8 * (due .embed 7 1 1 0 0 []).lenN ∧ (due .hide 47 1 0 8 0 []).DimOk ∧
    (due .hide 47 1 0 8 0 []).NOk ∧ (due .hide 47 1 0 8 0 []).KOk ∧
    (due .hide 47 1 0 8 0 []).cap < 8 * ((due .hide 47 1 0 8 0 []).lenN + 6) := by decide
theorem test_witness_IllegalWordAborts :
    (∃ s : State, s.EngineTurn ∧ s.snap.cmd.toNat = 16) ∧ (∃ s : State, s.EngineTurn ∧ s.snap.cmd.toNat % 16 = 7) :=
  ⟨⟨{ due .nop 0 0 0 0 0 [] with snap := ⟨16, 0, 0, 0, 0, 0⟩ }, by decide⟩,
    ⟨{ due .nop 0 0 0 0 0 [] with snap := ⟨7, 0, 0, 0, 0, 0⟩ }, by decide⟩⟩
/-- Each command in the small configuration with nothing written, and each other unwritten part. -/
theorem test_witness_UninitReadStopsCommands :
    stopOf (step (due .cipher 0 0 1 1 0 [])) = some .uninitRead ∧
    stopOf (step (due .cipher 0 0 1 1 0 (bytesAt [] [0x48] []))) = some .uninitRead ∧
    stopOf (step (due .embed 8 1 1 0 0 [])) = some .uninitRead ∧
    stopOf (step (due .embed 8 1 1 0 0 (bytesAt [] [0xA5] []))) = some .uninitRead ∧
    stopOf (step (due .recover 1 1 0 0 1 [])) = some .uninitRead ∧
    stopOf (step (due .clear 1 1 0 0 0 [])) = some .uninitRead ∧
    stopOf (step (due .hide 8 7 1 1 0 [])) = some .uninitRead ∧
    stopOf (step (due .hide 8 7 1 1 0 (bytesAt [] [0xA5] []))) = some .uninitRead ∧
    stopOf (step (due .hide 8 7 1 1 0 (bytesAt [0x6B] [0xA5] []))) = some .uninitRead ∧
    stopOf (step (due .extract 1 1 0 0 1 [])) = some .uninitRead := by decide +kernel

/-- P1's image after HIDE (its table of rows), EXTRACT with K = 1 and no key byte written. -/
def keylessExtract : State := due .extract 8 8 0 1 8
  (bytesAt [] [] ((bytesToBits [0x23, 0x02, 0x24, 0x53, 0x54, 0x4F, 0x50, 0x24]).map fun b => if b then 0x31 else 0x30))
theorem test_witness_UninitReadStopsCommands_extract_key : keylessExtract.DimOk ∧ keylessExtract.KOk ∧
    keylessExtract.MOk ∧ keylessExtract.BlueWritten keylessExtract.nbits ∧
    keylessExtract.WindowSpells [0x23, 0x02, 0x24, 0x53, 0x54, 0x4F, 0x50, 0x24] ∧
    findSentinel [0x23, 0x02, 0x24, 0x53, 0x54, 0x4F, 0x50, 0x24] = some 2 ∧
    ¬ keylessExtract.KeyWritten (min 2 keylessExtract.lenK) ∧ stopOf (step keylessExtract) = some .uninitRead := by
  decide +kernel

theorem test_witness_CommandsKeepRegisters : ∃ t, exec .extract (extractDue 1 4096) = .next t :=
  ⟨_, ran_eq (s := State.reset) (by decide +kernel)⟩
/-- A next state of every command. -/
theorem test_witness_CommandsStoreOnlyTheirBytes :
    (∃ t, exec .nop hideDue = .next t) ∧ (∃ t, exec .cipher cipherDue = .next t) ∧
    (∃ t, exec .embed embedDue = .next t) ∧ (∃ t, exec .recover recoverDue = .next t) ∧
    (∃ t, exec .clear clearDue = .next t) ∧ (∃ t, exec .hide hideDue = .next t) ∧
    (∃ t, exec .extract (extractDue 1 4096) = .next t) :=
  ⟨⟨_, ran_eq (s := State.reset) (by decide +kernel)⟩, ⟨_, ran_eq (s := State.reset) (by decide +kernel)⟩,
    ⟨_, ran_eq (s := State.reset) (by decide +kernel)⟩, ⟨_, ran_eq (s := State.reset) (by decide +kernel)⟩,
    ⟨_, ran_eq (s := State.reset) (by decide +kernel)⟩, ⟨_, ran_eq (s := State.reset) (by decide +kernel)⟩,
    ⟨_, ran_eq (s := State.reset) (by decide +kernel)⟩⟩
theorem test_witness_OnlyBlueLsbsEverChange : hideDue.params.Legal ∧ (∃ t, exec .hide hideDue = .next t) :=
  ⟨by decide, _, ran_eq (s := State.reset) (by decide +kernel)⟩
theorem test_witness_BuffersWrittenOnlyByTheirCommands : cipherDue.params.Legal ∧
    (∃ t, exec .cipher cipherDue = .next t) ∧ (∃ t, exec .clear clearDue = .next t) ∧ 7 < small.keyBytes ∧
    4095 < small.dataBytes :=
  ⟨by decide, ⟨_, ran_eq (s := State.reset) (by decide +kernel)⟩, ⟨_, ran_eq (s := State.reset) (by decide +kernel)⟩,
    by decide, by decide⟩
/-- A memory that differs in the red byte of pixel 0 alone. -/
theorem test_witness_OtherChannelsNeverMatter : embedDue.params.Legal ∧
    (∃ m : Memory, m.read (pixAddr 0) ≠ embedDue.mem.read (pixAddr 0) ∧
      ∀ a, (a < pixBase ∨ (a - pixBase) % 4 = 2) → m.read a = embedDue.mem.read a) ∧
    ∃ t, exec .embed embedDue = .next t := by
  refine ⟨by decide, ⟨embedDue.mem.write (pixAddr 0) 0x55, by decide +kernel, fun a ha => ?_⟩,
    _, ran_eq (s := State.reset) (by decide +kernel)⟩
  have hne : ∀ (m : Memory) (v : Byte) (b : Nat), a ≠ b → (m.write b v).read a = m.read a := by
    intro m v b hab
    induction m with
    | nil => simp [Memory.write, Memory.read, hab]
    | cons c m ih =>
      obtain ⟨k, x⟩ := c
      simp only [Memory.write]
      split
      · simp [Memory.read, hab]
      · split
        · rename_i h; subst h; simp [Memory.read, hab]
        · simp only [Memory.read, ih]
  refine hne _ _ _ ?_
  simp only [pixAddr]
  omega
theorem test_witness_ImageCommandsIdempotent : hideDue.params.Legal ∧
    (∃ t u, exec .hide hideDue = .next t ∧ exec .hide t = .next u) ∧
    (∃ t u, exec .embed embedDue = .next t ∧ exec .embed t = .next u) ∧
    ∃ t u, exec .clear clearDue = .next t ∧ exec .clear t = .next u :=
  ⟨by decide,
    ⟨_, _, ran_eq (s := State.reset) (by decide +kernel), ran_eq (s := State.reset) (by decide +kernel)⟩,
    ⟨_, _, ran_eq (s := State.reset) (by decide +kernel), ran_eq (s := State.reset) (by decide +kernel)⟩,
    ⟨_, _, ran_eq (s := State.reset) (by decide +kernel), ran_eq (s := State.reset) (by decide +kernel)⟩⟩
theorem test_witness_CipherTwiceRestores : cipherDue.params.Legal ∧
    ∃ t u, exec .cipher cipherDue = .next t ∧ exec .cipher t = .next u :=
  ⟨by decide, _, _, ran_eq (s := State.reset) (by decide +kernel), ran_eq (s := State.reset) (by decide +kernel)⟩

/-- RECOVER with M = N on the image EMBED has written. -/
theorem test_witness_EmbedRecoverSymmetry : ∃ s t u : State, s.params.Legal ∧ s.DimOk ∧ s.NOk ∧ 8 * s.lenN ≤ s.cap ∧
    exec .embed s = .next t ∧ u.params = s.params ∧ u.snap.w = s.snap.w ∧ u.snap.h = s.snap.h ∧
    (∀ q < 8 * s.lenN, u.blue q = t.blue q) ∧ s.lenN ≤ u.lenM ∧ u.MOk ∧ u.BlueWritten u.nbits :=
  ⟨embedDue, ran (exec .embed embedDue) State.reset,
    { embedDue with mem := (ran (exec .embed embedDue) State.reset).mem, snap := { embedDue.snap with m := 1 } },
    by decide, by decide, by decide, by decide, ran_eq (by decide +kernel), rfl, rfl, rfl, fun _ _ => rfl, by decide,
    by decide, by decide +kernel⟩
/-- P1, with the sentinel premise. -/
theorem test_witness_HideExtractSymmetry : hideDue.params.Legal ∧ hideDue.DimOk ∧ hideDue.NOk ∧ hideDue.KOk ∧
    8 * (hideDue.lenN + 6) ≤ hideDue.cap ∧ hideDue.DataIs [0x48, 0x69] ∧ hideDue.KeyIs [0x6B] hideDue.lenN ∧
    findSentinel (frame [0x48, 0x69] [0x6B]) = some hideDue.lenN ∧ hideDue.BlueWritten (8 * (hideDue.lenN + 6)) ∧
    ∃ t u : State, exec .hide hideDue = .next t ∧ u.params = hideDue.params ∧ u.snap.w = hideDue.snap.w ∧
      u.snap.h = hideDue.snap.h ∧ u.snap.k = hideDue.snap.k ∧ (∀ j < hideDue.lenK, u.key j = t.key j) ∧
      (∀ q < 8 * (hideDue.lenN + 6), u.blue q = t.blue q) ∧
      u.lenM = hideDue.lenN + 6 ∧ u.MOk ∧ u.BlueWritten u.nbits :=
  ⟨by decide, by decide, by decide, by decide, by decide, by decide +kernel, by decide +kernel, by decide +kernel,
    by decide +kernel, ran (exec .hide hideDue) State.reset,
    { hideDue with mem := (ran (exec .hide hideDue) State.reset).mem, snap := { hideDue.snap with m := 8 } },
    ran_eq (by decide +kernel), rfl, rfl, rfl, rfl, by decide +kernel, by decide +kernel, by decide,
    by decide,
    by decide +kernel⟩
/-- 2.5 H6. -/
theorem test_witness_ShortWindowNotFound : hideDue.params.Legal ∧ hideDue.DataIs [0x48, 0x69] ∧
    hideDue.KeyIs [0x6B] hideDue.lenN ∧ findSentinel (frame [0x48, 0x69] [0x6B]) = some hideDue.lenN ∧
    ∃ t u : State, exec .hide hideDue = .next t ∧ u.params = hideDue.params ∧ u.snap.w = hideDue.snap.w ∧
      u.snap.h = hideDue.snap.h ∧ (∀ q < 8 * (hideDue.lenN + 6), u.blue q = t.blue q) ∧ u.lenM + 1 = hideDue.lenN + 6 ∧ u.MOk ∧
      u.KOk :=
  ⟨by decide, by decide +kernel, by decide +kernel, by decide +kernel, ran (exec .hide hideDue) State.reset,
    { hideDue with mem := (ran (exec .hide hideDue) State.reset).mem, snap := { hideDue.snap with m := 7 } },
    ran_eq (by decide +kernel), rfl, rfl, rfl, fun _ _ => rfl, by decide, by decide, by decide⟩
/-- 2.5 H8: the wrong key, empty, and R166's other key length. -/
theorem test_witness_WrongKeyGivesXorOfKeys : hideDue.params.Legal ∧ hideDue.DataIs [0x48, 0x69] ∧
    hideDue.KeyIs [0x6B] hideDue.lenN ∧ findSentinel (frame [0x48, 0x69] [0x6B]) = some hideDue.lenN ∧
    ∃ t u : State, exec .hide hideDue = .next t ∧ u.params = hideDue.params ∧ u.snap.w = hideDue.snap.w ∧
      u.snap.h = hideDue.snap.h ∧ (∀ q < 8 * (hideDue.lenN + 6), u.blue q = t.blue q) ∧ u.lenM = hideDue.lenN + 6 ∧ u.MOk ∧
      u.KOk ∧ u.KeyIs [] hideDue.lenN ∧ u.BlueWritten u.nbits :=
  ⟨by decide, by decide +kernel, by decide +kernel, by decide +kernel, ran (exec .hide hideDue) State.reset,
    { hideDue with
      mem := (ran (exec .hide hideDue) State.reset).mem, snap := { hideDue.snap with m := 8, k := 0 } },
    ran_eq (by decide +kernel), rfl, rfl, rfl, fun _ _ => rfl, by decide, by decide, by decide, by decide +kernel,
    by decide +kernel⟩
/-- P3 on a small image. -/
theorem test_witness_ClearDefeatsExtract : ∃ s t u : State, s.DimOk ∧ exec .clear s = .next t ∧ u.params = s.params ∧
    u.snap.w = s.snap.w ∧ u.snap.h = s.snap.h ∧ (∀ q < s.cap, u.blue q = t.blue q) ∧ u.MOk ∧ u.KOk ∧ 0 < u.recovered :=
  ⟨due .clear 4 2 0 0 4096 embedDue.mem, ran (exec .clear (due .clear 4 2 0 0 4096 embedDue.mem)) State.reset,
    { due .recover 4 2 0 0 4096 [] with
      mem := (ran (exec .clear (due .clear 4 2 0 0 4096 embedDue.mem)) State.reset).mem },
    by decide, ran_eq (by decide +kernel), rfl, rfl, rfl, fun _ _ => rfl, by decide, by decide, by decide⟩

theorem test_witness_RegisterReadValues : Params.reference.Legal ∧ 0x038 ≤ 0x038 ∧ 0x038 ≤ 0xFFC := by decide
/-- R20, R35: the last register and the first and last reserved offsets. -/
theorem test_reg_offsets : regAt 0x034 = some .pixSize ∧ regAt 0x038 = none ∧ regAt 0xFFC = none := by decide
theorem test_witness_StatusWordLayout : 10 ≤ 10 ∧ 10 ≤ 31 := by decide
/-- The first register, the last reserved offset; idle and busy. -/
theorem test_witness_HostReadsRegister :
    (idleWith (.read 0x000 .word) []).HostTurn ∧ (busyWith (.read 0xFFC .word) []).HostTurn ∧
    (0x000 : Word).toNat % 4 = 0 ∧ (0xFFC : Word).toNat % 4 = 0 ∧ (0xFFC : Word).toNat < 0x1000 := by decide
/-- Each of the five clauses. -/
theorem test_witness_HostWritesConfiguration : ∀ a ∈ [(0x008 : Word), 0x00C, 0x010, 0x014, 0x018],
    (idleWith (.write a .word 5) []).phase = .idle ∧ (idleWith (.write a .word 5) []).status.busy = false ∧
    (idleWith (.write a .word 5) []).host = [.write a .word 5] := fun _ _ => ⟨rfl, rfl, rfl⟩
theorem test_witness_WritesWhileBusyDropped : ∀ a ∈ [(0x000 : Word), 0x008, 0x00C, 0x010, 0x014, 0x018],
    (busyWith (.write a .word 5) []).HostTurn ∧ (busyWith (.write a .word 5) []).status.busy = true ∧
    (busyWith (.write a .word 5) []).host = [.write a .word 5] := fun _ _ => ⟨.inr Nat.one_pos, rfl, rfl⟩
theorem test_witness_StatusWriteOneToClear : (idleWith (.write 4 .word 6) []).HostTurn ∧
    (busyWith (.write 4 .word 6) []).HostTurn := ⟨.inl rfl, .inr Nat.one_pos⟩
theorem test_witness_ReadOnlyWritesIgnored : ∀ a ∈ [(0x01C : Word), 0x034, 0x038, 0xFFC],
    a.toNat % 4 = 0 ∧ 0x01C ≤ a.toNat ∧ a.toNat < 0x1000 ∧ (busyWith (.write a .word 5) []).HostTurn := by
  intro a ha
  simp only [List.mem_cons, List.not_mem_nil, or_false] at ha
  rcases ha with rfl | rfl | rfl | rfl <;> exact ⟨by decide, by decide, by decide, .inr Nat.one_pos⟩
theorem test_witness_CmdWriteAccepts : (idleWith (.write 0 .word 0xFFFFFFFF) []).phase = .idle ∧
    (idleWith (.write 0 .word 0xFFFFFFFF) []).status.busy = false := by decide

/-- Each clause at its bounds: misaligned, the wrong size in REG, and just past each valid part. -/
theorem test_witness_BusErrorsStop : (idleWith (.read 0x1001 .half) []).HostTurn ∧
    (busyWith (.write 0x1001 .half 0) []).HostTurn ∧ (0x1001 : Word).toNat % AccessSize.half.bytes ≠ 0 ∧
    ((0xFFF : Word).toNat < 0x1000 ∧ AccessSize.byte ≠ .word) ∧
    (∀ a ∈ [(0x1008 : Word), 0xFFFF, 0x00011000, 0x00FFFFFF, 0x01000200, 0xFFFFFFFF],
      0x1000 ≤ a.toNat ∧ ¬ (a.toNat + AccessSize.byte.bytes ≤ 0x1000 + small.keyBytes) ∧
      ¬ (0x10000 ≤ a.toNat ∧ a.toNat + AccessSize.byte.bytes ≤ 0x10000 + small.dataBytes) ∧
      ¬ (0x1000000 ≤ a.toNat ∧ a.toNat + AccessSize.byte.bytes ≤ 0x1000000 + 4 * small.maxPixels)) := by
  refine ⟨.inl rfl, .inr Nat.one_pos, by decide, by decide, ?_⟩
  intro a ha
  simp only [List.mem_cons, List.not_mem_nil, or_false] at ha
  rcases ha with rfl | rfl | rfl | rfl | rfl | rfl <;> decide
/-- The last word of each part, written and unwritten. -/
theorem test_witness_HostReadsBuffer :
    (∀ a ∈ [(0x1004 : Word), 0x00010FFC, 0x010001FC], a.toNat % AccessSize.word.bytes = 0 ∧
      ((0x1000 ≤ a.toNat ∧ a.toNat + AccessSize.word.bytes ≤ 0x1000 + small.keyBytes) ∨
        (0x10000 ≤ a.toNat ∧ a.toNat + AccessSize.word.bytes ≤ 0x10000 + small.dataBytes) ∨
        (0x1000000 ≤ a.toNat ∧ a.toNat + AccessSize.word.bytes ≤ 0x1000000 + 4 * small.maxPixels)) ∧
      (∀ j < 4, (Memory.writeEvery 1 [] a.toNat [1, 2, 3, 4]).read (a.toNat + j) ≠ none) ∧
      ∃ j < 4, Memory.read [] (a.toNat + j) = none) ∧
    (idleWith (.read 0x1004 .word) []).phase = .idle ∧ (idleWith (.read 0x1004 .word) []).status.busy = false := by
  refine ⟨?_, rfl, rfl⟩
  intro a ha
  simp only [List.mem_cons, List.not_mem_nil, or_false] at ha
  rcases ha with rfl | rfl | rfl <;> exact ⟨by decide, by decide, by decide, ⟨3, by decide, rfl⟩⟩
theorem test_witness_HostWritesBuffer :
    (∀ a ∈ [(0x1000 : Word), 0x00010000, 0x01000000], a.toNat % AccessSize.byte.bytes = 0 ∧
      ((0x1000 ≤ a.toNat ∧ a.toNat + AccessSize.byte.bytes ≤ 0x1000 + small.keyBytes) ∨
        (0x10000 ≤ a.toNat ∧ a.toNat + AccessSize.byte.bytes ≤ 0x10000 + small.dataBytes) ∨
        (0x1000000 ≤ a.toNat ∧ a.toNat + AccessSize.byte.bytes ≤ 0x1000000 + 4 * small.maxPixels))) ∧
    (idleWith (.write 0x1000 .byte 0) []).phase = .idle ∧ (idleWith (.write 0x1000 .byte 0) []).status.busy = false := by
  refine ⟨?_, rfl, rfl⟩
  intro a ha
  simp only [List.mem_cons, List.not_mem_nil, or_false] at ha
  rcases ha with rfl | rfl | rfl <;> decide
/-- A read and a write, of a byte that is written and of one that is not. -/
theorem test_witness_BusyBufferAccessStops :
    stopOf (step (busyWith (.read 0x00010FFF .byte) [])) = some .busyHazard ∧
    stopOf (step (busyWith (.read 0x00010000 .byte) [(0x10000, 7)])) = some .busyHazard ∧
    stopOf (step (busyWith (.write 0x1000 .word 0) [])) = some .busyHazard ∧
    (busyWith (.write 0x1000 .word 0) []).HostTurn ∧ (busyWith (.write 0x1000 .word 0) []).status.busy = true := by
  decide +kernel

theorem test_witness_StepRunsDecodedCommand : ∀ i ∈ [Instr.nop, .cipher, .embed, .recover, .clear, .hide, .extract],
    (due i 0 0 0 0 0 []).EngineTurn ∧ decodeWord (due i 0 0 0 0 0 []).snap.cmd = .cmd i := by decide
theorem test_witness_WaitPollsUntilIdle : (idleWith .poll []).HostTurn ∧ (busyWith .poll []).HostTurn ∧
    (busyWith .poll []).host = [.poll] := by decide
theorem test_witness_BusyEngineCompletes :
    ({ due .nop 0 0 0 0 0 [] with wait := 3 } : State).phase = .busy ∧
    ({ due .nop 0 0 0 0 0 [] with wait := 3 } : State).host = [] ∧
    (busyWith .poll []).phase = .busy ∧ (busyWith .poll []).host = [.poll] ∧ (busyWith .poll []).status.busy = true ∧
    (after (Host.Core.run core ((busyWith .poll []).wait + 1) (busyWith .poll []))).isSome = true := by decide +kernel
theorem test_witness_ResetAtAnyTime : (idleWith .reset []).HostTurn ∧ (busyWith .reset []).HostTurn ∧
    (busyWith .reset []).host = [.reset] := by decide
/-- A busy state and an idle one that keep the invariant and take a step. -/
theorem test_witness_StepKeepsInv :
    (State.Inv hideDue ∧ ∃ t, step hideDue = .next t) ∧
    (State.Inv (idleWith (.write 0x00010000 .word 5) [(0x1000, 7)]) ∧
      ∃ t, step (idleWith (.write 0x00010000 .word 5) [(0x1000, 7)]) = .next t) :=
  ⟨⟨by constructor <;> decide +kernel, _, ran_eq (s := State.reset) (by decide +kernel)⟩,
    ⟨by constructor <;> decide +kernel, _, ran_eq (s := State.reset) (by decide +kernel)⟩⟩
theorem test_witness_InstancesAreIndependent : ∃ ts, stepInstance [State.reset, hideDue] 0 = .next ts := ⟨_, rfl⟩

end Sys2Proof.Tests
end

/-! PROOFS. How a command ends, said once, and the invariant of the machine: it holds after reset and every step keeps
it. -/

namespace Sys2Proof.Machine

/-! ### How a command ends -/

/-- How a completion can end: an abort (R203), a normal end with no other effect (R160), a run of DATA or of blue bytes
stored inside its buffer, RECOVER's result (R146) and EXTRACT's (R162). -/
inductive State.Ends (s : State) : State → Prop where
  | abort (e : ErrCode) : State.Ends s (s.abort e)
  | finish : State.Ends s s.finish
  | data (bs : List Byte) (fits : bs.length ≤ s.params.dataBytes) : State.Ends s (s.writeData bs).usedDatapath.finish
  | blue (bs : List Byte) (fits : bs.length ≤ s.params.maxPixels) : State.Ends s (s.writeBlue bs).usedDatapath.finish
  | recovered (bs : List Byte) (fits : bs.length ≤ s.params.dataBytes) :
      State.Ends s (s.writeRecovered bs).usedDatapath.finish
  | extracted (bs : List Byte) (r : Option Nat) (fits : bs.length ≤ s.params.dataBytes)
      (found : ∀ L, r = some L → L + 6 ≤ bs.length) :
      State.Ends s ((s.writeRecovered bs).writeResult r).usedDatapath.finish

/-- The bits of `bs` embedded in the pixels read for them are as many as those pixels. -/
theorem embedded_length {s : State} {bs v : List Byte} {n : Nat} (hv : s.blueBytes (8 * n) = some v)
    (hn : bs.length = n) : (List.zipWith insertBit v (bytesToBits bs)).length = 8 * n := by
  simp [(State.blueBytes_eq_some.1 hv).1, hn]

/-- Deciphering the first `L` bytes keeps the number of recovered bytes. -/
theorem deciphered_length (bs k : List Byte) (L : Nat) :
    (applyKey (bs.take L) k ++ bs.drop L).length = bs.length := by
  simp only [List.length_append, applyKey_length, List.length_take, List.length_drop]; omega

theorem exec_ends {i : Instr} {s t : State} (h : exec i s = .next t) : s.Ends t := by
  cases i with
  | nop => rw [execNop_eq] at h; cases h; exact .finish
  | cipher =>
    rcases execCipher_next h with ⟨e, _, rfl⟩ | ⟨_, _, _, rfl⟩ | ⟨hN, _, _, d, k, hd, _, rfl⟩
    · exact .abort e
    · exact .finish
    · exact .data _ (by rwa [applyKey_length, (State.dataBytes_eq_some.1 hd).1])
  | embed =>
    rcases execEmbed_next h with ⟨e, _, rfl⟩ | ⟨hD, _, hc, d, v, hd, hv, rfl⟩
    · exact .abort e
    · exact .blue _ (by rw [embedded_length hv (State.dataBytes_eq_some.1 hd).1]; exact hc.trans hD)
  | recover =>
    rcases execRecover_next h with ⟨e, _, rfl⟩ | ⟨_, hM, v, hv, rfl⟩
    · exact .abort e
    · exact .recovered _ (by rw [recovered_length hv]; exact State.recovered_le hM)
  | clear =>
    rcases execClear_next h with ⟨e, _, rfl⟩ | ⟨hD, v, hv, rfl⟩
    · exact .abort e
    · exact .blue _ (by rwa [List.length_map, (State.blueBytes_eq_some.1 hv).1])
  | hide =>
    rcases execHide_next h with ⟨e, _, rfl⟩ | ⟨hD, _, _, hc, d, k, v, hd, _, hv, rfl⟩
    · exact .abort e
    · have hl : (frame d k).length = s.lenN + 6 := by rw [frame_length, (State.dataBytes_eq_some.1 hd).1]
      exact .blue _ (by rw [embedded_length hv hl]; exact hc.trans hD)
  | extract =>
    rcases execExtract_next h with ⟨e, _, rfl⟩ | ⟨_, _, hM, v, bs, hv, hbs, hr⟩
    · exact .abort e
    · have hfits : bs.length ≤ s.params.dataBytes := by rw [hbs, recovered_length hv]; exact State.recovered_le hM
      rcases hr with ⟨_, rfl⟩ | ⟨L, k, hf, _, rfl⟩
      · exact .extracted bs none hfits (by simp)
      · refine .extracted _ (some L) (by rwa [deciphered_length]) fun L' hL' => ?_
        cases hL'
        rw [deciphered_length]
        exact findSentinel_le hf

/-- Completion ends as a command does: an illegal word aborts (R93). -/
theorem complete_ends {s t : State} (h : complete s = .next t) : s.Ends t := by
  unfold complete at h
  split at h
  · exact exec_ends h
  · cases h; exact .abort _

/-! ### Bytes stored inside a buffer -/

theorem insideBuffer_dataAddr {p : Params} {i : Nat} (h : i < p.dataBytes) : insideBuffer p (dataAddr i) 1 = true :=
  insideBuffer_iff.2 (.inr (.inl (by unfold dataAddr dataBase; omega)))

theorem insideBuffer_blueAddr {p : Params} {q : Nat} (h : q < p.maxPixels) : insideBuffer p (blueAddr q) 1 = true :=
  insideBuffer_iff.2 (.inr (.inr (by unfold blueAddr pixAddr pixBase pixBytes; omega)))

/-- A byte of an access that lies inside a buffer lies inside it too. -/
theorem insideBuffer_byte {p : Params} {a n j : Nat} (h : insideBuffer p a n = true) (hj : j < n) :
    insideBuffer p (a + j) 1 = true := by
  rw [insideBuffer_iff] at h ⊢; omega

/-- A run of writes inside the buffers keeps memory inside them. -/
theorem Memory.writeEvery_parts {p : Params} {m : Memory} {d a : Nat} {bs : List Byte}
    (h : ∀ c ∈ m, insideBuffer p c.1 1 = true) (hw : ∀ i < bs.length, insideBuffer p (a + d * i) 1 = true) :
    ∀ c ∈ Memory.writeEvery d m a bs, insideBuffer p c.1 1 = true := fun c hc => by
  rcases Memory.mem_writeEvery hc with ⟨i, hi, he⟩ | hc
  · rw [he]; exact hw i hi
  · exact h c hc

theorem State.writeData_parts {s : State} {bs : List Byte} (h : ∀ c ∈ s.mem, insideBuffer s.params c.1 1 = true)
    (hfits : bs.length ≤ s.params.dataBytes) : ∀ c ∈ (s.writeData bs).mem, insideBuffer s.params c.1 1 = true :=
  Memory.writeEvery_parts h fun i hi => by rw [dataAddr_add]; exact insideBuffer_dataAddr (by omega)

theorem State.writeBlue_parts {s : State} {bs : List Byte} (h : ∀ c ∈ s.mem, insideBuffer s.params c.1 1 = true)
    (hfits : bs.length ≤ s.params.maxPixels) : ∀ c ∈ (s.writeBlue bs).mem, insideBuffer s.params c.1 1 = true :=
  Memory.writeEvery_parts h fun i hi => by rw [blueAddr_add]; exact insideBuffer_blueAddr (by omega)

/-! ### The invariant after a completion -/

/-- Where the engine is idle, what the invariant says of acceptance is vacuous. -/
theorem State.Inv.of_idle {t : State} (hphase : t.phase = .idle) (hbusy : t.status.busy = false)
    (legal : t.params.Legal) (memWf : t.mem.wf = true) (memParts : ∀ c ∈ t.mem, insideBuffer t.params c.1 1 = true)
    (errClear : t.status.err ≠ .none → t.status.result = .none ∧ t.recovLen = 0)
    (foundClear : t.status.result ≠ .found → t.foundLen = 0)
    (foundFits : t.status.result = .found → t.foundLen.toNat + 6 ≤ t.recovLen.toNat)
    (recovFits : t.recovLen.toNat ≤ t.params.dataBytes) : State.Inv t where
  legal := legal
  memWf := memWf
  memParts := memParts
  phaseBusy := by simp [hphase, hbusy]
  busyClear := by simp [hphase]
  busySnap := by simp [hphase]
  errClear := errClear
  foundClear := foundClear
  foundFits := foundFits
  recovFits := recovFits

/-- The length of a run that fits DATA fits a register, in a legal configuration (R8, R30). -/
theorem toNat_ofNat_of_fits {p : Params} {n : Nat} (hp : p.Legal) (h : n ≤ p.dataBytes) :
    (BitVec.ofNat 32 n).toNat = n := by
  obtain ⟨_, ⟨_, hd⟩, _⟩ := hp
  rw [BitVec.toNat_ofNat, Nat.mod_eq_of_lt (by omega)]

/-- A completion with no result registers written leaves them as acceptance cleared them (R50, R205). -/
theorem State.Inv.completed {s t : State} (h : State.Inv s) (hb : s.phase = .busy) (hphase : t.phase = .idle)
    (hbusy : t.status.busy = false) (hparams : t.params = s.params) (memWf : t.mem.wf = true)
    (memParts : ∀ c ∈ t.mem, insideBuffer s.params c.1 1 = true) (hresult : t.status.result = s.status.result)
    (hrecov : t.recovLen = s.recovLen) (hfound : t.foundLen = s.foundLen) : State.Inv t := by
  obtain ⟨_, _, hr, hR, hL⟩ := h.busyClear hb
  exact .of_idle hphase hbusy (hparams ▸ h.legal) memWf (hparams ▸ memParts) (by simp [hresult, hr, hrecov, hR])
    (by simp [hfound, hL]) (by simp [hresult, hr]) (by simp [hrecov, hR])

/-- R51, R203, R204: every completion of a busy engine keeps the invariant. -/
theorem State.Inv.ends {s t : State} (h : State.Inv s) (hb : s.phase = .busy) (ht : s.Ends t) : State.Inv t := by
  obtain ⟨_, _, hr, hR, hL⟩ := h.busyClear hb
  cases ht with
  | abort e => exact h.completed hb rfl rfl rfl h.memWf h.memParts rfl rfl rfl
  | finish => exact h.completed hb rfl rfl rfl h.memWf h.memParts rfl rfl rfl
  | data bs fits =>
    exact h.completed hb rfl rfl rfl (Memory.wf_writeEvery h.memWf) (State.writeData_parts h.memParts fits) rfl rfl rfl
  | blue bs fits =>
    exact h.completed hb rfl rfl rfl (Memory.wf_writeEvery h.memWf) (State.writeBlue_parts h.memParts fits) rfl rfl rfl
  | recovered bs fits =>
    have hlen := toNat_ofNat_of_fits h.legal fits
    exact .of_idle rfl rfl h.legal (Memory.wf_writeEvery h.memWf) (State.writeData_parts h.memParts fits) (by simp)
      (by simp [hL]) (by simp [hr]) (by simpa [hlen] using fits)
  | extracted bs r fits found =>
    have hlen := toNat_ofNat_of_fits h.legal fits
    have hmem : ((s.writeRecovered bs).writeResult r).usedDatapath.finish.mem = (s.writeData bs).mem := by simp
    refine .of_idle rfl rfl (by simpa using h.legal) (hmem ▸ Memory.wf_writeEvery h.memWf) ?_ (by simp) ?_ ?_ ?_
    · simpa [hmem] using State.writeData_parts h.memParts fits
    · cases r <;> simp [hL]
    · cases r with
      | none => simp
      | some L =>
        have hL6 := found L rfl
        have hLn := toNat_ofNat_of_fits (n := L) h.legal (by omega)
        simpa [hlen, hLn] using hL6
    · simpa [hlen] using fits

/-! ### The invariant after a move of the host -/

theorem State.Inv.tick {s : State} (h : State.Inv s) : State.Inv s.tick := h.congr (by simp) (by simp) (by simp)
  (by simp) (by simp) (by simp) (by simp) (by simp) (by simp) (by simp) (by simp) (by simp)

/-- What is the host's is no part of the invariant. -/
theorem State.Inv.host {s : State} (h : State.Inv s) (ops : List HostOp) : State.Inv { s with host := ops } :=
  h.congr rfl rfl rfl rfl rfl rfl rfl rfl rfl rfl rfl rfl

theorem State.Inv.logRead {s : State} (h : State.Inv s) (v : Word) : State.Inv (s.logRead v) :=
  h.congr rfl rfl rfl rfl rfl rfl rfl rfl rfl rfl rfl rfl

/-- R36: OVR is no part of the invariant. -/
theorem State.Inv.overrun {s : State} (h : State.Inv s) : State.Inv s.overrun := { h with }

/-- R24: clearing DONE or OVR keeps the invariant; DONE is clear already while busy. -/
theorem State.Inv.w1c {s : State} (h : State.Inv s) (v : Word) :
    State.Inv { s with status := s.status.w1c v } :=
  { h with
    busyClear := fun hb => by
      obtain ⟨hdone, hrest⟩ := h.busyClear hb
      exact ⟨by simp [hdone], hrest⟩ }

/-- R50: acceptance clears every result and takes the snapshot of the live registers. -/
theorem State.Inv.accept {s : State} (h : State.Inv s) (c : Word) : State.Inv (s.accept c) where
  legal := h.legal
  memWf := h.memWf
  memParts := h.memParts
  phaseBusy := by simp
  busyClear := by simp
  busySnap := by simp
  errClear := by simp
  foundClear := by simp
  foundFits := by simp
  recovFits := by simp

/-- A configuration register is written only where the snapshot is not in use (R36). -/
theorem State.Inv.configure {s t : State} (h : State.Inv s) (ht : s.status.busy = false → State.Inv t) :
    State.Inv (s.configure t) := by
  unfold State.configure
  split
  · exact h.overrun
  · exact ht (by simpa using ‹¬ s.status.busy = true›)

theorem State.Inv.phase_ne_busy {s : State} (h : State.Inv s) (hb : s.status.busy = false) : s.phase ≠ .busy :=
  fun hp => by simp [h.phaseBusy.1 hp] at hb

theorem State.Inv.writeReg {s : State} (h : State.Inv s) (r : Option Reg) (v : Word) :
    State.Inv (s.writeReg r v) := by
  cases r with
  | none => exact h
  | some r =>
    cases r with
    | cmd => exact h.configure fun _ => h.accept v
    | status => exact h.w1c v
    | width | height | payloadLen | keyLen | maxRecovery =>
      exact h.configure fun hb => { h with busySnap := fun hp => absurd hp (h.phase_ne_busy hb) }
    | recovLen | foundLen | capacity | id | keySize | dataSize | pixSize => exact h

/-- A host write of a buffer stores bytes of its valid part alone (R62, R68). -/
theorem State.Inv.hostStore {s : State} (h : State.Inv s) {a : Nat} {bs : List Byte}
    (hin : insideBuffer s.params a bs.length = true) :
    State.Inv { s with mem := Memory.writeEvery 1 s.mem a bs } :=
  { h with
    memWf := Memory.wf_writeEvery h.memWf
    memParts := Memory.writeEvery_parts h.memParts fun i hi => by
      rw [Nat.one_mul]; exact insideBuffer_byte hin hi }

/-- A host read that is answered changes the log alone (R67, R69). -/
theorem hostRead_next {a : Word} {n : AccessSize} {s t : State} (h : hostRead a n s = .next t) :
    ∃ v, t = s.logRead v := by
  unfold hostRead at h
  split at h
  · cases h
  · cases h; exact ⟨_, rfl⟩
  · split at h
    · cases h
    · obtain ⟨bs, _, h⟩ := needBytes_eq_next.1 h
      cases h
      exact ⟨_, rfl⟩

/-- A host write that is answered writes a register, or an idle engine's buffer (R68, R69, R246). -/
theorem hostWrite_next {a v : Word} {n : AccessSize} {s t : State} (h : hostWrite a n v s = .next t) :
    (∃ r, t = s.writeReg r v) ∨ (insideBuffer s.params a.toNat n.bytes = true ∧ s.status.busy = false ∧
      t = { s with mem := Memory.writeEvery 1 s.mem a.toNat (leBytes n.bytes v) }) := by
  unfold hostWrite at h
  split at h
  · cases h
  · cases h; exact .inl ⟨_, rfl⟩
  · rename_i htarget
    split at h
    · cases h
    · cases h; exact .inr ⟨insideBuffer_of_target htarget, by simpa using ‹¬ s.status.busy = true›, rfl⟩

/-- A poll reads STATUS, and stays pending while busy (R97). -/
theorem hostPoll_next {s t : State} (h : hostPoll s = .next t) :
    ∃ ops, t = { s.logRead s.status.toWord with host := ops } := by
  unfold hostPoll at h
  split at h <;> cases h
  · exact ⟨_, rfl⟩
  · exact ⟨s.host, rfl⟩

/-- R240: reset meets the invariant in every legal configuration. -/
theorem State.inv_resetWith {p : Params} (hp : p.Legal) : State.Inv (State.resetWith p) :=
  .of_idle rfl rfl hp (State.resetWith_wf p) (by simp [State.resetWith]) (by simp [State.resetWith])
    (by simp [State.resetWith]) (by simp [State.resetWith]) (by simp [State.resetWith])

theorem State.Inv.hwReset {s : State} (h : State.Inv s) : State.Inv s.hwReset :=
  (State.inv_resetWith h.legal).congr rfl rfl rfl rfl rfl rfl rfl rfl rfl rfl rfl rfl

theorem State.Inv.hostOp {s t : State} {op : HostOp} (h : State.Inv s) (ht : hostOp op s = .next t) : State.Inv t := by
  cases op with
  | read a n => obtain ⟨v, rfl⟩ := hostRead_next ht; exact h.logRead v
  | write a n v =>
    rcases hostWrite_next ht with ⟨r, rfl⟩ | ⟨hin, _, rfl⟩
    · exact h.writeReg r v
    · exact h.hostStore (by rwa [leBytes_length])
  | poll => obtain ⟨ops, rfl⟩ := hostPoll_next ht; exact (h.logRead _).host ops
  | reset => cases ht; exact h.hwReset

theorem State.Inv.hostMove {s t : State} (h : State.Inv s) (ht : hostMove s = .next t) : State.Inv t := by
  unfold Machine.hostMove at ht
  split at ht
  · cases ht; exact h
  · exact (h.host _).hostOp ht

/-! ### A step -/

/-- A step is the completion of a busy engine or a move of the host (R51). -/
theorem step_cases {s t : State} (h : step s = .next t) :
    (s.EngineTurn ∧ complete s = .next t) ∨ (s.HostTurn ∧ hostMove s.tick = .next t) := by
  unfold step at h
  split at h
  · rename_i hp hw; exact .inl ⟨⟨hp, hw⟩, h⟩
  · rename_i hp hw; exact .inr ⟨.inr (by omega), h⟩
  · rename_i hp; exact .inr ⟨.inl hp, by rwa [State.tick_idle hp]⟩

/-- Settles O59: a completion and each move of the host keep the invariant. -/
theorem stepKeepsInv : Obligations.StepKeepsInv := by
  intro s t h ht
  rcases step_cases ht with ⟨⟨hb, _⟩, hc⟩ | ⟨_, hm⟩
  · exact h.ends hb (complete_ends hc)
  · exact h.tick.hostMove hm

/-- Settles O58: the reference configuration is legal. -/
theorem resetMeetsInv : Obligations.ResetMeetsInv := State.inv_resetWith (by decide)

/-- Settles O57: each register and every byte of the reset state, evaluated. -/
theorem resetRegisterValues : Obligations.ResetRegisterValues :=
  ⟨rfl, by decide, by decide, by decide, rfl, rfl, rfl, rfl, rfl, by decide, rfl, by decide, by decide, by decide,
    fun _ => rfl⟩

end Sys2Proof.Machine

/-! PROOFS. Which bytes a command reads and stores: the stop on an unwritten byte, the frames of KEY, DATA and PIX, and the
channels that never matter. -/

namespace Sys2Proof.Machine

/-! ### The stop on an unwritten byte (R13, R71) -/

/-- The bytes are needed: if the rest stops on every answer, so does the whole. -/
theorem needBytes_uninit {o : Option (List Byte)} {k : List Byte → Host.Outcome State Fault Refusal}
    (h : ∀ bs, o = some bs → k bs = .fault .uninitRead) : needBytes o k = .fault .uninitRead := by
  cases o with
  | none => rfl
  | some bs => exact h bs rfl

theorem needBytes_of_none {o : Option (List Byte)} {k : List Byte → Host.Outcome State Fault Refusal}
    (h : o = none) : needBytes o k = .fault .uninitRead := by rw [h, needBytes_none]

/-- With a key, CIPHER reads DATA[0:N] and the key bytes it needs (R125). -/
theorem cipherData_keyed {s : State} (h : 0 < s.lenK) : cipherData s =
    needBytes (s.dataBytes s.lenN) fun d => needBytes (s.keyBytes s.lenN) fun k =>
      .next (s.writeData (applyKey d k)).usedDatapath.finish :=
  if_neg (by omega)

/-- Embedding `n` bytes reads the blue bytes of 8n pixels (R143). -/
theorem embedBytes_uninit {s : State} {bs : List Byte} {n : Nat} (hn : bs.length = n) (h : ¬ s.BlueWritten (8 * n)) :
    embedBytes bs s = .fault .uninitRead :=
  needBytes_of_none (by rw [hn]; exact State.blueBytes_unwritten h)

theorem recoverBytes_uninit {s : State} {k : List Byte → Host.Outcome State Fault Refusal}
    (h : ¬ s.BlueWritten s.nbits) : recoverBytes s k = .fault .uninitRead :=
  needBytes_of_none (State.blueBytes_unwritten h)

/-- Recovering from written pixels gives what their window spells (R146). -/
theorem recoverBytes_spells {s : State} {bs : List Byte} {k : List Byte → Host.Outcome State Fault Refusal}
    (hw : s.BlueWritten s.nbits) (hbs : s.WindowSpells bs) : recoverBytes s k = k bs := by
  obtain ⟨v, hv⟩ := State.blueBytes_of_written hw
  rw [recoverBytes, hv, needBytes_some, recovered_eq hbs hv]

/-- With the sentinel found at `L`, EXTRACT reads the key bytes that deciphering `L` bytes needs (R162). -/
theorem extractBytes_found {s : State} {bs : List Byte} {L : Nat} (h : findSentinel bs = some L) :
    extractBytes s bs = needBytes (s.keyBytes L) fun k =>
      .next ((s.writeRecovered (applyKey (bs.take L) k ++ bs.drop L)).writeResult (some L)).usedDatapath.finish := by
  unfold extractBytes; rw [h]

/-- Settles O28: past its checks, each command's first unwritten byte stops it. -/
theorem uninitReadStopsCommands : Obligations.UninitReadStopsCommands := by
  intro s
  refine ⟨fun hN hK h0 h => ?cipher, fun hD hN hc h => ?embed, fun hD hM h => ?recover, fun hD h => ?clear,
    fun hD hN hK hc h => ?hide, fun hD hK hM h => ?extractWindow, fun bs L hD hK hM hw hbs hf h => ?extractKey⟩
  case cipher =>
    rw [execCipher_pass hN hK, cipherData_keyed h0]
    rcases h with h | h
    · exact needBytes_of_none (State.dataBytes_unwritten h)
    · exact needBytes_uninit fun d _ => needBytes_of_none (State.keyBytes_unwritten h)
  case embed =>
    rw [execEmbed_pass hD hN hc]
    rcases h with h | h
    · exact needBytes_of_none (State.dataBytes_unwritten h)
    · exact needBytes_uninit fun d hd => embedBytes_uninit (State.dataBytes_eq_some.1 hd).1 h
  case recover => rw [execRecover_pass hD hM]; exact recoverBytes_uninit h
  case clear => rw [execClear_pass hD]; exact needBytes_of_none (State.blueBytes_unwritten h)
  case hide =>
    rw [execHide_pass hD hN hK hc]
    rcases h with h | h | h
    · exact needBytes_of_none (State.dataBytes_unwritten h)
    · exact needBytes_uninit fun d _ => needBytes_of_none (State.keyBytes_unwritten h)
    · exact needBytes_uninit fun d hd => needBytes_uninit fun k _ =>
        embedBytes_uninit (by rw [frame_length, (State.dataBytes_eq_some.1 hd).1]) h
  case extractWindow => rw [execExtract_pass hD hK hM]; exact recoverBytes_uninit h
  case extractKey =>
    rw [execExtract_pass hD hK hM, recoverBytes_spells hw hbs, extractBytes_found hf]
    exact needBytes_of_none (State.keyBytes_unwritten h)

/-! ### Where the buffers stand (R61) -/

/-- No pixel byte is a byte of a run of DATA that fits (R8, R61). -/
theorem not_inData_pixAddr {p : Params} (hp : p.Legal) {n : Nat} (h : n ≤ p.dataBytes) (j : Nat) :
    ¬ inData n (pixAddr j) := by
  rintro ⟨i, hi, he⟩
  obtain ⟨_, ⟨_, hd⟩, _⟩ := hp
  unfold pixAddr pixBase dataAddr dataBase at he
  omega

theorem not_inData_keyAddr {p : Params} (hp : p.Legal) {j : Nat} (h : j < p.keyBytes) (n : Nat) :
    ¬ inData n (keyAddr j) := by
  rintro ⟨i, hi, he⟩
  obtain ⟨⟨_, hk⟩, _⟩ := hp
  unfold keyAddr keyBase dataAddr dataBase at he
  omega

theorem not_inBlue_keyAddr {p : Params} (hp : p.Legal) {j : Nat} (h : j < p.keyBytes) (n : Nat) :
    ¬ inBlue n (keyAddr j) := by
  rintro ⟨q, hq, he⟩
  obtain ⟨⟨_, hk⟩, _⟩ := hp
  unfold keyAddr keyBase blueAddr pixAddr pixBase at he
  omega

theorem not_inBlue_dataAddr {p : Params} (hp : p.Legal) {j : Nat} (h : j < p.dataBytes) (n : Nat) :
    ¬ inBlue n (dataAddr j) := by
  rintro ⟨q, hq, he⟩
  obtain ⟨_, ⟨_, hd⟩, _⟩ := hp
  unfold dataAddr dataBase blueAddr pixAddr pixBase at he
  omega

/-- Only byte 2 of a pixel is blue (R43, R44). -/
theorem not_inBlue_pixAddr {p c : Nat} (hc : c < 4) (h2 : c ≠ 2) (n : Nat) : ¬ inBlue n (pixAddr (4 * p + c)) := by
  rintro ⟨q, hq, he⟩
  unfold blueAddr pixAddr pixBytes at he
  omega

/-- The blue byte of a pixel that is not visited is not stored. -/
theorem not_inBlue_blueAddr {n p : Nat} (h : n ≤ p) : ¬ inBlue n (blueAddr p) := by
  rintro ⟨q, hq, he⟩
  rw [blueAddr_inj] at he
  omega

/-! ### The frames of a command -/

/-- Rewriting blue bytes with their bits [7:1] kept keeps bits [7:1] of every blue byte. -/
theorem State.writeBlue_keeps_high {s : State} {v w : List Byte} {g : Nat → Byte → Byte}
    (hv : s.blueBytes v.length = some v) (hg : ∀ p b, g p b &&& 0xFE = b &&& 0xFE) (hl : w.length = v.length)
    (hw : ∀ p < v.length, w.getD p 0 = g p (v.getD p 0)) (p : Nat) :
    ((s.writeBlue w).blue p).map (· &&& 0xFE) = (s.blue p).map (· &&& 0xFE) := by
  rcases Nat.lt_or_ge p v.length with hp | hp
  · have hold : s.blue p = some (v.getD p 0) := (State.blueBytes_eq_some.1 hv).2 p hp
    have hnew : (s.writeBlue w).blue p = some (w.getD p 0) := State.writeBlue_read (by omega)
    rw [hold, hnew, hw p hp, Option.map_some, Option.map_some, hg]
  · have hframe : (s.writeBlue w).blue p = s.blue p := State.writeBlue_frame (not_inBlue_blueAddr (by omega))
    rw [hframe]

/-- Settles O31: a command stores DATA bytes, or blue bytes with their bits [7:1] kept. -/
theorem onlyBlueLsbsEverChange : Obligations.OnlyBlueLsbsEverChange := by
  intro i s t hp h p
  rcases exec_memory h with hm | ⟨_, bs, hfits, hm⟩ | ⟨_, v, g, hv, hg, w, hl, hw, hm⟩
  · simp [State.pix, State.blue, hm]
  · have hpix : ∀ j, t.pix j = s.pix j := fun j => by
      rw [State.pix, hm]; exact State.writeData_frame (not_inData_pixAddr hp hfits j)
    exact ⟨fun c _ _ => hpix _, congrArg _ (hpix _)⟩
  · refine ⟨fun c hc h2 => ?_, ?_⟩
    · rw [State.pix, hm]; exact State.writeBlue_frame (not_inBlue_pixAddr hc h2 _)
    · rw [State.blue, hm]; exact State.writeBlue_keeps_high hv hg hl hw p

/-- Settles O32: DATA and PIX are stored to by different commands, and KEY by none. -/
theorem buffersWrittenOnlyByTheirCommands : Obligations.BuffersWrittenOnlyByTheirCommands := by
  intro i s t hp h
  rcases exec_memory h with hm | ⟨hi, bs, hfits, hm⟩ | ⟨hi, v, g, _, _, w, _, _, hm⟩
  · simp [State.key, State.data, State.pix, hm]
  · refine ⟨fun j hj => ?_, fun hi' => ?_, fun _ j => ?_⟩
    · rw [State.key, hm]; exact State.writeData_frame (not_inData_keyAddr hp hj _)
    · exact absurd hi' (by revert hi; cases i <;> decide)
    · rw [State.pix, hm]; exact State.writeData_frame (not_inData_pixAddr hp hfits j)
  · refine ⟨fun j hj => ?_, fun _ j hj => ?_, fun hi' => ?_⟩
    · rw [State.key, hm]; exact State.writeBlue_frame (not_inBlue_keyAddr hp hj _)
    · rw [State.data, hm]; exact State.writeBlue_frame (not_inBlue_dataAddr hp hj _)
    · exact absurd hi' (by revert hi; cases i <;> decide)

/-! ### The channels that never matter (R46) -/

/-- An offset a command may look at: a byte below PIX, or a blue byte. -/
abbrev engineSees (a : Nat) : Prop := a < pixBase ∨ (a - pixBase) % 4 = 2

/-- Two memories that hold the same where a command may look. -/
def SameSeen (m' m : Memory) : Prop := ∀ a, engineSees a → m'.read a = m.read a

/-- Two outcomes that are the same stop, or next states that differ only where no command looks. -/
inductive SameOutcome : Host.Outcome State Fault Refusal → Host.Outcome State Fault Refusal → Prop where
  | stop : SameOutcome (.fault .uninitRead) (.fault .uninitRead)
  | next {t : State} {m' : Memory} (h : SameSeen m' t.mem) : SameOutcome (.next t) (.next { t with mem := m' })

theorem engineSees_blueAddr (p : Nat) : engineSees (blueAddr p) := by
  unfold engineSees blueAddr pixAddr pixBytes; omega

theorem engineSees_dataAddr {p : Params} (hp : p.Legal) {i : Nat} (h : i < p.dataBytes) : engineSees (dataAddr i) := by
  obtain ⟨_, ⟨_, hd⟩, _⟩ := hp
  unfold engineSees dataAddr dataBase pixBase; omega

theorem engineSees_keyAddr {p : Params} (hp : p.Legal) {i : Nat} (h : i < p.keyBytes) : engineSees (keyAddr i) := by
  obtain ⟨⟨_, hk⟩, _⟩ := hp
  unfold engineSees keyAddr keyBase pixBase; omega

/-- The same writes on two memories that agree at an offset agree there. -/
theorem Memory.writeEvery_read_congr {m m' : Memory} {b : Nat} (h : m'.read b = m.read b) (d a : Nat)
    (bs : List Byte) : (Memory.writeEvery d m' a bs).read b = (Memory.writeEvery d m a bs).read b := by
  induction bs generalizing m m' a with
  | nil => exact h
  | cons v bs ih => exact ih (by rw [Memory.read_write, Memory.read_write, h]) _

theorem SameSeen.writeEvery {m m' : Memory} (h : SameSeen m' m) {d a : Nat} {bs : List Byte} :
    SameSeen (Memory.writeEvery d m' a bs) (Memory.writeEvery d m a bs) :=
  fun b hb => Memory.writeEvery_read_congr (h b hb) d a bs

theorem SameSeen.dataBytes {s : State} {m : Memory} (h : SameSeen m s.mem) (hp : s.params.Legal) (hN : s.NOk) :
    State.dataBytes { s with mem := m } s.lenN = s.dataBytes s.lenN :=
  Memory.readEvery_congr fun i hi => h _ (by
    rw [dataAddr_add]; exact engineSees_dataAddr hp (Nat.lt_of_lt_of_le hi hN))

theorem SameSeen.keyBytes {s : State} {m : Memory} (h : SameSeen m s.mem) (hp : s.params.Legal) (hK : s.KOk) (n : Nat) :
    State.keyBytes { s with mem := m } n = s.keyBytes n :=
  Memory.readEvery_congr fun i hi => h _ (by
    rw [keyAddr_add]; exact engineSees_keyAddr hp (Nat.lt_of_lt_of_le hi ((Nat.min_le_right ..).trans hK)))

theorem SameSeen.blueBytes {s : State} {m : Memory} (h : SameSeen m s.mem) (n : Nat) :
    State.blueBytes { s with mem := m } n = s.blueBytes n :=
  Memory.readEvery_congr fun i _ => h _ (by rw [blueAddr_add]; exact engineSees_blueAddr i)

/-- The same bytes needed, and the same outcome of the rest on each answer. -/
theorem SameOutcome.needBytes {o o' : Option (List Byte)} {k k' : List Byte → Host.Outcome State Fault Refusal}
    (ho : o' = o) (hk : ∀ bs, SameOutcome (k bs) (k' bs)) :
    SameOutcome (Machine.needBytes o k) (Machine.needBytes o' k') := by
  subst ho
  cases o' with
  | none => exact .stop
  | some bs => exact hk bs

/-- The checks look at no byte: both abort alike, or both go on. -/
theorem SameOutcome.validated {s : State} {m : Memory} {cs : List (Option ErrCode)}
    {body body' : Host.Outcome State Fault Refusal} (h : SameSeen m s.mem)
    (hb : (∀ c ∈ cs, c = none) → SameOutcome body body') :
    SameOutcome (Machine.validated cs s body) (Machine.validated cs { s with mem := m } body') := by
  unfold Machine.validated
  cases hc : firstError cs with
  | some e => exact .next h
  | none => exact hb ((firstError_eq_none_iff cs).1 hc)

theorem SameOutcome.embedBytes {s : State} {m : Memory} (h : SameSeen m s.mem) (bs : List Byte) :
    SameOutcome (Machine.embedBytes bs s) (Machine.embedBytes bs { s with mem := m }) :=
  .needBytes (h.blueBytes _) fun _ => .next h.writeEvery

theorem SameOutcome.recoverBytes {s : State} {m : Memory} {k k' : List Byte → Host.Outcome State Fault Refusal}
    (h : SameSeen m s.mem) (hk : ∀ bs, SameOutcome (k bs) (k' bs)) :
    SameOutcome (Machine.recoverBytes s k) (Machine.recoverBytes { s with mem := m } k') :=
  .needBytes (h.blueBytes _) fun _ => hk _

theorem SameOutcome.cipherData {s : State} {m : Memory} (h : SameSeen m s.mem) (hp : s.params.Legal) (hN : s.NOk)
    (hK : s.KOk) : SameOutcome (Machine.cipherData s) (Machine.cipherData { s with mem := m }) := by
  rcases Nat.eq_zero_or_pos s.lenK with h0 | h0
  · rw [show Machine.cipherData s = .next s.finish from if_pos h0,
      show Machine.cipherData { s with mem := m } = .next (State.finish { s with mem := m }) from if_pos h0]
    exact .next h
  · rw [cipherData_keyed h0, cipherData_keyed (s := { s with mem := m }) h0]
    exact .needBytes (h.dataBytes hp hN) fun _ => .needBytes (h.keyBytes hp hK _) fun _ => .next h.writeEvery

theorem SameOutcome.extractBytes {s : State} {m : Memory} (h : SameSeen m s.mem) (hp : s.params.Legal) (hK : s.KOk)
    (bs : List Byte) : SameOutcome (Machine.extractBytes s bs) (Machine.extractBytes { s with mem := m } bs) := by
  unfold Machine.extractBytes
  split
  · exact .next h.writeEvery
  · exact .needBytes (h.keyBytes hp hK _) fun _ => .next h.writeEvery

/-- R46: a command has the same outcome on memories that hold the same below PIX and in the blue bytes. -/
theorem exec_sameOutcome {s : State} {m : Memory} (h : SameSeen m s.mem) (hp : s.params.Legal) (i : Instr) :
    SameOutcome (exec i s) (exec i { s with mem := m }) := by
  cases i with
  | nop => exact .next h
  | cipher =>
    refine .validated h fun hc => ?_
    simp only [List.forall_mem_cons, checkN_eq_none, checkK_eq_none] at hc
    obtain ⟨hN, hK, _⟩ := hc
    exact .cipherData h hp hN hK
  | embed =>
    refine .validated h fun hc => ?_
    simp only [List.forall_mem_cons, checkN_eq_none] at hc
    obtain ⟨_, hN, _⟩ := hc
    exact .needBytes (h.dataBytes hp hN) fun _ => .embedBytes h _
  | recover => exact .validated h fun _ => .recoverBytes h fun _ => .next h.writeEvery
  | clear => exact .validated h fun _ => .needBytes (h.blueBytes _) fun _ => .next h.writeEvery
  | hide =>
    refine .validated h fun hc => ?_
    simp only [List.forall_mem_cons, checkN_eq_none, checkK_eq_none] at hc
    obtain ⟨_, hN, hK, _⟩ := hc
    exact .needBytes (h.dataBytes hp hN) fun _ => .needBytes (h.keyBytes hp hK _) fun _ => .embedBytes h _
  | extract =>
    refine .validated h fun hc => ?_
    simp only [List.forall_mem_cons, checkK_eq_none] at hc
    obtain ⟨_, hK, _⟩ := hc
    exact .recoverBytes h fun _ => .extractBytes h hp hK _

theorem SameOutcome.stops_iff {o o' : Host.Outcome State Fault Refusal} (h : SameOutcome o o') :
    o = .fault .uninitRead ↔ o' = .fault .uninitRead := by
  cases h <;> simp

theorem SameOutcome.of_next {o' : Host.Outcome State Fault Refusal} {t : State} (h : SameOutcome (.next t) o') :
    ∃ m', o' = .next { t with mem := m' } ∧ SameSeen m' t.mem := by
  cases h with
  | next h => exact ⟨_, rfl, h⟩

/-- Settles O33: both runs have the same outcome where a command may look. -/
theorem otherChannelsNeverMatter : Obligations.OtherChannelsNeverMatter := by
  intro i s m hp h
  have hsame := exec_sameOutcome (m := m) h hp i
  exact ⟨hsame.stops_iff, fun t ht => (ht ▸ hsame).of_next⟩

end Sys2Proof.Machine

/-! PROOFS. A host read of a buffer. -/

namespace Sys2Proof.Machine

/-- An idle read that reaches a buffer returns the bytes there in little-endian lanes, or stops on one that nothing has
written (R13, R64, R67). -/
theorem hostRead_buffer {s : State} {a : Word} {n : AccessSize} (hb : s.status.busy = false)
    (ht : target s.params a.toNat n.bytes = .buffer) :
    hostRead a n s = needBytes (s.mem.readEvery 1 a.toNat n.bytes) fun bs => .next (s.logRead (leWord bs)) := by
  unfold hostRead; rw [ht]; simp [hb]

/-- Settles O50: the run of bytes read is answered in lanes, or has an unwritten byte. -/
theorem hostReadsBuffer : Obligations.HostReadsBuffer := by
  intro s a n rest hphase hbusy halign hin hhost
  have hstep : step s = needBytes (s.mem.readEvery 1 a.toNat n.bytes) fun bs =>
      .next (State.logRead { s with host := rest } (leWord bs)) :=
    (step_idleTurn hphase hhost).trans
      (hostRead_buffer (s := { s with host := rest }) hbusy (target_buffer halign hin))
  rw [hstep]
  refine ⟨fun hw => ?written, fun ⟨j, hj, hnone⟩ => ?unwritten⟩
  case written =>
    obtain ⟨bs, hbs⟩ := Memory.readEvery_of_written (m := s.mem) (d := 1) (a := a.toNat) (n := n.bytes)
      (by simpa using hw)
    obtain ⟨hlen, hread⟩ := Memory.readEvery_eq_some.1 hbs
    have h4 : bs.length ≤ 4 := by rcases AccessSize.bytes_cases n with h | h | h <;> omega
    refine ⟨leWord bs, by rw [hbs]; rfl, fun j hj => ?_, hlen ▸ leWord_lt bs h4⟩
    rw [leWord_byte bs h4 j (by omega), ← hread j hj, Nat.one_mul]
  case unwritten =>
    exact needBytes_of_none (Memory.readEvery_eq_none.2 ⟨j, hj, by rwa [Nat.one_mul]⟩)

end Sys2Proof.Machine

/-! PROOFS. Every command completes or stops on an unwritten byte, and what a completion leaves alone; and how a busy
engine gets to its completion. -/

namespace Sys2Proof.Machine

/-! ### A command's outcomes (R53, R208) -/

/-- The outcome is a next state, or the stop on an unwritten byte. -/
def Answers (o : Host.Outcome State Fault Refusal) : Prop := (∃ t, o = .next t) ∨ o = .fault .uninitRead

theorem Answers.next (t : State) : Answers (.next t) := .inl ⟨t, rfl⟩

theorem Answers.needBytes {o : Option (List Byte)} {k : List Byte → Host.Outcome State Fault Refusal}
    (h : ∀ bs, Answers (k bs)) : Answers (Machine.needBytes o k) := by
  cases o with
  | none => exact .inr rfl
  | some bs => exact h bs

/-- A failing check aborts, which is a next state (R203). -/
theorem Answers.validated {cs : List (Option ErrCode)} {s : State} {body : Host.Outcome State Fault Refusal}
    (h : Answers body) : Answers (Machine.validated cs s body) := by
  rcases validated_cases cs s body with ⟨e, _, he⟩ | ⟨_, he⟩
  · exact .inl ⟨_, he⟩
  · rwa [he]

theorem Answers.cipherData (s : State) : Answers (Machine.cipherData s) := by
  unfold Machine.cipherData
  split
  · exact .next _
  · exact .needBytes fun _ => .needBytes fun _ => .next _

theorem Answers.embedBytes (bs : List Byte) (s : State) : Answers (Machine.embedBytes bs s) :=
  .needBytes fun _ => .next _

theorem Answers.extractBytes (s : State) (bs : List Byte) : Answers (Machine.extractBytes s bs) := by
  unfold Machine.extractBytes
  split
  · exact .next _
  · exact .needBytes fun _ => .next _

/-- Settles O27: each command validates, reads the bytes it needs and completes. -/
theorem onlyUninitReadStopsACommand : Obligations.OnlyUninitReadStopsACommand := fun i s => by
  cases i with
  | nop => exact Answers.next _
  | cipher => exact Answers.validated (.cipherData s)
  | embed => exact Answers.validated (.needBytes fun d => .embedBytes d s)
  | recover => exact Answers.validated (.needBytes fun _ => .next _)
  | clear => exact Answers.validated (.needBytes fun _ => .next _)
  | hide => exact Answers.validated (.needBytes fun _ => .needBytes fun _ => .embedBytes _ s)
  | extract => exact Answers.validated (.needBytes fun _ => .extractBytes s _)

/-! ### What a completion leaves alone (R37, R51, R205) -/

/-- Every end is IDLE with BUSY = 0 and DONE = 1 (R51). -/
theorem State.Ends.idle {s t : State} (h : s.Ends t) :
    t.status.busy = false ∧ t.status.done = true ∧ t.phase = .idle := by
  cases h <;> exact ⟨rfl, rfl, rfl⟩

theorem State.Ends.keepsConfiguration {s t : State} (h : s.Ends t) :
    t.params = s.params ∧ t.width = s.width ∧ t.height = s.height ∧ t.payloadLen = s.payloadLen ∧
      t.keyLen = s.keyLen ∧ t.maxRecovery = s.maxRecovery := by
  cases h <;> simp

theorem State.Ends.keepsHost {s t : State} (h : s.Ends t) :
    t.status.ovr = s.status.ovr ∧ t.snap = s.snap ∧ t.host = s.host ∧ t.readLog = s.readLog ∧ t.wait = s.wait := by
  cases h with
  | extracted bs r => cases r <;> simp
  | _ => simp

/-- Only EXTRACT writes RESULT and FOUND_LEN, and only RECOVER besides it RECOV_LEN (R30, R31, R205). -/
theorem exec_keepsResults {i : Instr} {s t : State} (h : exec i s = .next t) (hi : i ≠ .extract) :
    (t.status.result = s.status.result ∧ t.foundLen = s.foundLen) ∧ (i ≠ .recover → t.recovLen = s.recovLen) := by
  cases i with
  | nop => cases h; simp
  | cipher => rcases execCipher_next h with ⟨_, _, rfl⟩ | ⟨_, _, _, rfl⟩ | ⟨_, _, _, _, _, _, _, rfl⟩ <;> simp
  | embed => rcases execEmbed_next h with ⟨_, _, rfl⟩ | ⟨_, _, _, _, _, _, _, rfl⟩ <;> simp
  | recover => rcases execRecover_next h with ⟨_, _, rfl⟩ | ⟨_, _, _, _, rfl⟩ <;> simp
  | clear => rcases execClear_next h with ⟨_, _, rfl⟩ | ⟨_, _, _, rfl⟩ <;> simp
  | hide => rcases execHide_next h with ⟨_, _, rfl⟩ | ⟨_, _, _, _, _, _, _, _, _, _, rfl⟩ <;> simp
  | extract => exact absurd rfl hi

/-- Settles O29: what every end leaves alone, and the result registers by command. -/
theorem commandsKeepRegisters : Obligations.CommandsKeepRegisters := fun _ _ _ h =>
  have hends := exec_ends h
  ⟨hends.idle, hends.keepsConfiguration, hends.keepsHost, fun hr he => (exec_keepsResults h he).2 hr,
    fun he => (exec_keepsResults h he).1⟩

/-! ### The engine's turn and the moves before it (R51, R97) -/

/-- Completion of a word that decodes is its command (R51, R94). -/
theorem complete_of_decode {s : State} {i : Instr} (h : decodeWord s.snap.cmd = .cmd i) : complete s = exec i s := by
  unfold complete; rw [h]

/-- Settles O53: the step completes, and completion is the decoded command. -/
theorem stepRunsDecodedCommand : Obligations.StepRunsDecodedCommand := fun _ _ hturn hdecode =>
  (step_engineTurn hturn).trans (complete_of_decode hdecode)

theorem State.tick_of_wait {s : State} {n : Nat} (hphase : s.phase = .busy) (hwait : s.wait = n + 1) :
    s.tick = { s with wait := n } := by
  rw [State.tick_busy hphase, hwait, Nat.add_sub_cancel]

/-- While busy with nothing pending, a step is a tick of the latency. -/
theorem step_busy_noHost {s : State} {n : Nat} (hphase : s.phase = .busy) (hwait : s.wait = n + 1)
    (hhost : s.host = []) : step s = .next { s with wait := n } := by
  have htick : step s = hostMove s.tick := by unfold step; rw [hphase, hwait]
  rw [htick, State.tick_of_wait hphase hwait]
  simp only [hostMove, hhost]

/-- While BUSY = 1, WAIT reads STATUS and stays pending (R97). -/
theorem step_poll_busy {s : State} {n : Nat} {rest : List HostOp} (hphase : s.phase = .busy) (hwait : s.wait = n + 1)
    (hhost : s.host = .poll :: rest) (hbusy : s.status.busy = true) :
    step s = .next { s with wait := n, readLog := s.status.toWord :: s.readLog } := by
  rw [step_hostTurn (.inr (by omega)) hhost, State.tick_of_wait hphase hwait]
  simp only [hostOp, hostPoll, hbusy, if_true, State.logRead, hhost]

/-- Once idle with BUSY = 0, WAIT reads STATUS and is over (R97). -/
theorem step_poll_idle {s : State} {rest : List HostOp} (hphase : s.phase = .idle) (hhost : s.host = .poll :: rest)
    (hbusy : s.status.busy = false) :
    step s = .next { s with host := rest, readLog := s.status.toWord :: s.readLog } := by
  rw [step_idleTurn hphase hhost]
  simp [hostOp, hostPoll, hbusy, State.logRead]

/-- With nothing pending the engine completes after the moves its latency names (R51, R251). -/
theorem run_busy_noHost {s : State} {n : Nat} (hphase : s.phase = .busy) (hwait : s.wait = n) (hhost : s.host = []) :
    Host.Core.run core (n + 1) s = complete { s with wait := 0 } := by
  induction n generalizing s with
  | zero => rw [run_one, step_engineTurn ⟨hphase, hwait⟩, ← hwait]
  | succ n ih =>
    rw [run_succ, step_busy_noHost hphase hwait hhost]
    exact ih (s := { s with wait := n }) hphase rfl hhost

/-- With a WAIT pending it does too, each move logging a STATUS word with BUSY = 1 (R97). -/
theorem run_busy_poll {s : State} {n : Nat} {rest : List HostOp} (hphase : s.phase = .busy) (hwait : s.wait = n)
    (hhost : s.host = .poll :: rest) (hbusy : s.status.busy = true) :
    Host.Core.run core (n + 1) s =
      complete { s with wait := 0, readLog := List.replicate n s.status.toWord ++ s.readLog } := by
  induction n generalizing s with
  | zero => rw [run_one, step_engineTurn ⟨hphase, hwait⟩, List.replicate_zero, List.nil_append, ← hwait]
  | succ n ih =>
    rw [run_succ, step_poll_busy hphase hwait hhost hbusy, List.replicate_succ', List.append_assoc]
    exact ih (s := { s with wait := n, readLog := s.status.toWord :: s.readLog }) hphase rfl hhost hbusy

/-- Settles O55: the latency runs out move by move, and the completion leaves BUSY = 0 for the WAIT to read. -/
theorem busyEngineCompletes : Obligations.BusyEngineCompletes := by
  refine fun s hphase => ⟨run_busy_noHost hphase rfl, fun rest hhost hbusy => ?_⟩
  have hrun := run_busy_poll hphase rfl hhost hbusy
  refine ⟨hrun, fun t ht => ?_⟩
  have hends := complete_ends (hrun.symm.trans ht)
  obtain ⟨hidle, _, hphase'⟩ := hends.idle
  obtain ⟨_, _, hhost', _⟩ := hends.keepsHost
  exact ⟨hidle, (run_then_step ht).trans (step_poll_idle hphase' (hhost'.trans hhost) hidle)⟩

end Sys2Proof.Machine

/-! PROOFS. The register file as the host sees it: the STATUS word, where the registers stand and what they read, and
every host access to them; the bus errors. -/

namespace Sys2Proof.Machine

/-! ### Where registers stand (R20, R35) -/

/-- The register at an offset stands there. -/
theorem regOffset_of_regAt {a : Nat} {r : Reg} (h : regAt a = some r) : regOffset r = a := by
  simpa using List.find?_some h

theorem regAt_regOffset (r : Reg) : regAt (regOffset r) = some r := by cases r <;> rfl

theorem regOffset_lt (r : Reg) : regOffset r < 0x038 := by cases r <;> decide

theorem regOffset_aligned (r : Reg) : regOffset r % 4 = 0 := by cases r <;> rfl

/-- From 0x038 up every offset is reserved (R35). -/
theorem regAt_reserved {a : Nat} (h : 0x038 ≤ a) : regAt a = none := by
  cases hr : regAt a with
  | none => rfl
  | some r =>
    have := regOffset_of_regAt hr
    have := regOffset_lt r
    omega

/-! ### What registers read (R25–R33) -/

/-- The product of two 16-bit numbers fits 32 bits, so CAPACITY never overflows (R32). -/
theorem State.readReg_capacity (s : State) :
    (s.readReg (some .capacity)).toNat = s.width.toNat * s.height.toNat := by
  have hlt : s.width.toNat * s.height.toNat < 2 ^ 16 * 2 ^ 16 := Nat.mul_lt_mul'' s.width.isLt s.height.isLt
  simp only [State.readReg, BitVec.toNat_mul, BitVec.toNat_setWidth_of_le (show 16 ≤ 32 by decide)]
  exact Nat.mod_eq_of_lt hlt

/-- The parameters of a legal configuration fit the registers that read them (R8, R33). -/
theorem State.readReg_sizes {s : State} (h : s.params.Legal) :
    (s.readReg (some .keySize)).toNat = s.params.keyBytes ∧ (s.readReg (some .dataSize)).toNat = s.params.dataBytes ∧
      (s.readReg (some .pixSize)).toNat = s.params.maxPixels := by
  obtain ⟨⟨_, hk⟩, ⟨_, hd⟩, ⟨_, hp⟩⟩ := h
  simp only [State.readReg, BitVec.toNat_ofNat]
  exact ⟨Nat.mod_eq_of_lt (by omega), Nat.mod_eq_of_lt (by omega), Nat.mod_eq_of_lt (by omega)⟩

/-- Settles O41: the registers that need an argument are CAPACITY and the sizes; the rest is R20's table. -/
theorem registerReadValues : Obligations.RegisterReadValues := fun s =>
  ⟨rfl, rfl, BitVec.toNat_setWidth_of_le (by decide), BitVec.toNat_setWidth_of_le (by decide), rfl, rfl, rfl, rfl, rfl,
    s.readReg_capacity, rfl, State.readReg_sizes, rfl, by decide, fun _ => regAt_reserved⟩

/-! ### The STATUS word (R23) -/

/-- Each bit of the STATUS word: BUSY, DONE, OVR, a reserved bit, the two codes, then reserved bits. -/
theorem Status.toWord_getLsbD (st : Status) (i : Nat) : st.toWord.getLsbD i =
    if i < 4 then [st.busy, st.done, st.ovr, false].getD i false
    else if i < 8 then st.err.code.getLsbD (i - 4)
    else st.result.code.getLsbD (i - 8) := by
  simp only [Status.toWord, BitVec.getLsbD_append]
  rcases Nat.lt_or_ge i 4 with h | h
  · interval_cases i <;> simp
  · obtain ⟨k, rfl⟩ := Nat.exists_eq_add_of_le' h
    rcases Nat.lt_or_ge k 4 with hk | hk
    · simp [hk, show k + 4 < 8 by omega]
    · have hcode : st.result.code.getLsbD (k - 4) = true → k ≤ 5 := fun hbit => by
        have := BitVec.lt_of_getLsbD hbit
        omega
      simpa [Nat.not_lt.2 hk, show ¬ k + 4 < 8 by omega] using hcode

/-- Bits [7:4] are ERR's code and bits [9:8] RESULT's (R23, R200, R205). -/
theorem Status.toWord_err (st : Status) : st.toWord.extractLsb 7 4 = st.err.code := by
  refine BitVec.eq_of_getLsbD_eq fun i hi => ?_
  rw [BitVec.getLsbD_extractLsb, Status.toWord_getLsbD, if_neg (by omega), if_pos (by omega)]
  simpa using fun _ => (by omega : i < 4)

theorem Status.toWord_result (st : Status) : st.toWord.extractLsb 9 8 = st.result.code := by
  refine BitVec.eq_of_getLsbD_eq fun i hi => ?_
  rw [BitVec.getLsbD_extractLsb, Status.toWord_getLsbD, if_neg (by omega), if_neg (by omega)]
  simp [show i ≤ 1 by omega]

/-- Settles O42: the flags, the codes and the reserved bits of the STATUS word. -/
theorem statusWordLayout : Obligations.StatusWordLayout := fun st => by
  refine ⟨st.toWord_getLsbD 0, st.toWord_getLsbD 1, st.toWord_getLsbD 2, st.toWord_getLsbD 3, ?_, ?_, fun i hi => ?_⟩
  · rw [Status.toWord_err]; cases st.err <;> rfl
  · rw [Status.toWord_result]; cases st.result <;> rfl
  · rw [Status.toWord_getLsbD, if_neg (by omega), if_neg (by omega)]
    exact BitVec.getLsbD_of_ge _ _ (by omega)

/-! ### Host accesses to registers (R22–R36, R69) -/

/-- A register read is answered with the register's value (R69, R70). -/
theorem hostRead_reg {s : State} {a : Word} (h1 : a.toNat % 4 = 0) (h2 : a.toNat < 0x1000) :
    hostRead a .word s = .next (s.logRead (s.readReg (regAt a.toNat))) := by
  unfold hostRead
  rw [show AccessSize.word.bytes = 4 from rfl, target_reg h1 h2]

/-- Settles O43: the read logs the register's value. -/
theorem hostReadsRegister : Obligations.HostReadsRegister := fun s a rest hturn halign hlt hhost => by
  rw [step_hostTurn hturn hhost, hostOp, hostRead_reg halign hlt, State.readReg_host, State.tick_readReg, State.logRead,
    State.tick_readLog]

/-- A register write at the host's turn. -/
theorem step_writeReg {s : State} {a v : Word} {rest : List HostOp} (hturn : s.HostTurn)
    (hhost : s.host = .write a .word v :: rest) (halign : a.toNat % 4 = 0) (hlt : a.toNat < 0x1000) :
    step s = .next (State.writeReg { s.tick with host := rest } (regAt a.toNat) v) := by
  rw [step_hostTurn hturn hhost]; exact hostWrite_reg halign hlt rfl

theorem State.configure_idle {s : State} (t : State) (h : s.status.busy = false) : s.configure t = t := by
  simp [State.configure, h]

theorem State.configure_busy {s : State} (t : State) (h : s.status.busy = true) : s.configure t = s.overrun := by
  simp [State.configure, h]

/-- An idle write of CMD or of a configuration register takes effect (R22, R25–R29). -/
theorem step_configure_idle {s : State} {a v : Word} {rest : List HostOp} {t : State} (hphase : s.phase = .idle)
    (hbusy : s.status.busy = false) (hhost : s.host = .write a .word v :: rest) (halign : a.toNat % 4 = 0)
    (hlt : a.toNat < 0x1000)
    (hwrite : State.writeReg { s with host := rest } (regAt a.toNat) v = State.configure { s with host := rest } t) :
    step s = .next t := by
  rw [step_writeReg (.inl hphase) hhost halign hlt, State.tick_idle hphase, hwrite,
    State.configure_idle (s := { s with host := rest }) t hbusy]

/-- Settles O44: each configuration register's write is configured, and takes effect. -/
theorem hostWritesConfiguration : Obligations.HostWritesConfiguration := fun _ _ _ hphase hbusy => by
  refine ⟨?_, ?_, ?_, ?_, ?_⟩ <;>
    exact fun hhost => step_configure_idle hphase hbusy hhost (by decide) (by decide) rfl

/-- Settles O48: a CMD write is configured with the acceptance. -/
theorem cmdWriteAccepts : Obligations.CmdWriteAccepts := fun _ _ _ hphase hbusy hhost =>
  step_configure_idle hphase hbusy hhost (by decide) (by decide) rfl

/-- The offsets of R36 hold the registers whose write is dropped while busy. -/
theorem regOffset_configured : ∀ a ∈ [(0x000 : Word), 0x008, 0x00C, 0x010, 0x014, 0x018],
    ∃ r ∈ [Reg.cmd, .width, .height, .payloadLen, .keyLen, .maxRecovery], regOffset r = a.toNat := by
  simp [regOffset]

/-- While busy a write of CMD or of a configuration register is dropped (R36). -/
theorem State.writeReg_busy {s : State} {r : Reg} (hbusy : s.status.busy = true)
    (hr : r ∈ [Reg.cmd, .width, .height, .payloadLen, .keyLen, .maxRecovery]) (v : Word) :
    s.writeReg (some r) v = s.overrun := by
  cases r with
  | cmd | width | height | payloadLen | keyLen | maxRecovery => exact State.configure_busy _ hbusy
  | _ => exact absurd hr (by decide)

/-- Settles O45: the write reaches a register that BUSY protects. -/
theorem writesWhileBusyDropped : Obligations.WritesWhileBusyDropped := fun s a v rest hturn hbusy ha hhost => by
  obtain ⟨r, hr, hoff⟩ := regOffset_configured a ha
  rw [step_writeReg hturn hhost (hoff ▸ regOffset_aligned r) (hoff ▸ (regOffset_lt r).trans (by decide)), ← hoff,
    regAt_regOffset, State.writeReg_busy (by simpa using hbusy) hr]
  simp [State.overrun, Status.overrun]

/-- Write-one-to-clear, flag by flag (R24). -/
theorem Status.w1c_eq (st : Status) (v : Word) : st.w1c v = { st with
    done := if v.getLsbD 1 then false else st.done
    ovr := if v.getLsbD 2 then false else st.ovr } := by
  unfold Status.w1c
  cases v.getLsbD 1 <;> cases v.getLsbD 2 <;> simp

/-- Settles O46: STATUS takes the write in both phases. -/
theorem statusWriteOneToClear : Obligations.StatusWriteOneToClear := fun s v rest hturn hhost => by
  rw [step_writeReg hturn hhost (by decide) (by decide), show regAt (0x004 : Word).toNat = some .status by decide,
    State.writeReg, Status.w1c_eq, State.tick_status]

/-- From 0x01C up a register is read-only (R30–R34). -/
theorem State.writeReg_readOnly {s : State} {r : Reg} (h : 0x01C ≤ regOffset r) (v : Word) :
    s.writeReg (some r) v = s := by
  cases r with
  | cmd | status | width | height | payloadLen | keyLen | maxRecovery => exact absurd h (by decide)
  | _ => rfl

/-- Settles O47: a write from 0x01C up reaches a read-only register or a reserved offset. -/
theorem readOnlyWritesIgnored : Obligations.ReadOnlyWritesIgnored := fun s a v rest hturn halign hge hlt hhost => by
  rw [step_writeReg hturn hhost halign hlt]
  cases hat : regAt a.toNat with
  | none => rfl
  | some r => rw [State.writeReg_readOnly (regOffset_of_regAt hat ▸ hge)]

/-! ### Bus errors (R62, R66, R69) -/

/-- A misaligned access, one of the wrong size in REG, and one outside every valid part are errors. -/
theorem target_error {p : Params} {a : Nat} {n : AccessSize}
    (h : a % n.bytes ≠ 0 ∨ (a < 0x1000 ∧ n ≠ .word) ∨ (0x1000 ≤ a ∧ ¬ insideBuffer p a n.bytes = true)) :
    target p a n.bytes = .error := by
  unfold target
  split
  · rfl
  · rename_i halign
    rcases h with h | ⟨hlt, hn⟩ | ⟨hge, hout⟩
    · exact absurd h halign
    · exact (if_pos hlt).trans (if_neg (mt (AccessSize.bytes_eq_four n).1 hn))
    · exact (if_neg (Nat.not_lt.2 hge)).trans (if_neg hout)

/-- Settles O49: reads and writes alike stop where the access reaches no register and no buffer. -/
theorem busErrorsStop : Obligations.BusErrorsStop := fun s a v n rest hturn h hhost => by
  have htarget : target s.params a.toNat n.bytes = .error :=
    target_error (h.imp_right (.imp_right fun ⟨hge, hk, hd, hp⟩ => ⟨hge, by rw [insideBuffer_iff]; tauto⟩))
  rcases hhost with hhost | hhost <;> rw [step_hostTurn hturn hhost]
  · simp [hostOp, hostRead, htarget]
  · simp [hostOp, hostWrite, htarget]

end Sys2Proof.Machine

/-! PROOFS. The traversal of an image is the order of its pixels, and the registers of the serializer and of the
deserializer give the bit codec. -/

namespace Sys2Proof.Machine

/-! ### The traversal (R44, R140) -/

theorem traversal_succ (w h : Nat) : traversal w (h + 1) = traversal w h ++ (List.range w).map (w * h + ·) := by
  simp [traversal, List.range_succ, pixelIndex, Nat.mul_comm]

theorem traversal_eq_range (w h : Nat) : traversal w h = List.range (w * h) := by
  induction h with
  | zero => rfl
  | succ h ih => rw [traversal_succ, ih, Nat.mul_succ, List.range_add]

/-- Settles O14: the traversal by rows, and an index by column and row. -/
theorem traversalIsIndexOrder : Obligations.TraversalIsIndexOrder := fun w h =>
  ⟨traversal_eq_range w h, fun p hp =>
    ⟨Nat.div_add_mod' p w, Nat.mod_lt p (Nat.pos_of_mul_pos_right (Nat.zero_lt_of_lt hp)), Nat.div_lt_of_lt_mul hp⟩⟩

/-! ### The serializer (R39, R114) -/

/-- The registers of the serializer at stream position `t`. -/
def serialAt (t : Nat) : Datapath := { datapathStart with cursor := t, bitPos := t % 8, byteIdx := t / 8 }

/-- One position emits the stream's bit there and goes to the next. -/
theorem serialStep_serialAt (src : List Byte) (t : Nat) :
    serialStep src (serialAt t) = (bitAt src t, serialAt (t + 1)) := by
  unfold serialStep serialAt bitAt
  rcases Nat.lt_or_ge (t % 8) 7 with h | h
  · rw [if_neg (by simp; omega), show (t + 1) % 8 = t % 8 + 1 by omega, show (t + 1) / 8 = t / 8 by omega]
  · rw [if_pos (by simp; omega), show (t + 1) % 8 = 0 by omega, show (t + 1) / 8 = t / 8 + 1 by omega]

theorem serialRun_serialAt (src : List Byte) (n t : Nat) :
    serialRun src n (serialAt t) = ((List.range n).map fun k => bitAt src (t + k), serialAt (t + n)) := by
  induction n generalizing t with
  | zero => rfl
  | succ n ih =>
    simp only [serialRun, serialStep_serialAt, ih, List.range_succ_eq_map, List.map_cons, List.map_map]
    simp [Function.comp_def, Nat.add_assoc, Nat.add_comm 1]

/-! ### The deserializer (R114) -/

/-- One bit shifted into the accumulator. -/
def shiftIn (acc : Byte) (b : Bool) : Byte := (acc <<< 1) ||| (BitVec.ofBool b).setWidth 8

/-- Bits shifted in stand from the least significant up, the last one first, and push the old ones up. -/
theorem getLsbD_foldl_shiftIn (g : List Bool) (acc : Byte) {i : Nat} (hi : i < 8) :
    (g.foldl shiftIn acc).getLsbD i =
      if i < g.length then g.getD (g.length - 1 - i) false else acc.getLsbD (i - g.length) := by
  induction g generalizing acc with
  | nil => simp
  | cons b g ih =>
    rw [List.foldl_cons, ih, List.length_cons]
    rcases Nat.lt_trichotomy i g.length with h | h | h
    · rw [if_pos h, if_pos (by omega), show g.length + 1 - 1 - i = g.length - 1 - i + 1 by omega, List.getD_cons_succ]
    · subst h; simp [shiftIn]
    · rw [if_neg (by omega), if_neg (by omega), show i - g.length = i - (g.length + 1) + 1 by omega]
      simpa [shiftIn] using fun _ => (by omega : i - (g.length + 1) + 1 < 8)

/-- Eight bits shifted in are the byte of R111, whatever the accumulator held. -/
theorem foldl_shiftIn_eq_byteAt {g : List Bool} (hg : g.length = 8) (acc : Byte) (rest : List Bool) :
    g.foldl shiftIn acc = byteAt (g ++ rest) 0 := by
  refine byte_ext fun j hj => ?_
  rw [getLsbD_foldl_shiftIn g acc (by omega), if_pos (by omega), byteAt_getLsbD _ _ hj, hg,
    show 8 - 1 - (7 - j) = j by omega, Nat.mul_zero, Nat.zero_add, List.getD_append _ _ _ _ (hg ▸ hj)]

/-- The byte's last bit: it is emitted and the registers are cleared. -/
theorem deserialRun_emit {dp : Datapath} (h : dp.bitPos + 1 = 8) (b : Bool) (bs : List Bool) :
    ∃ dp', dp'.acc = 0 ∧ dp'.bitPos = 0 ∧ deserialRun dp (b :: bs) = shiftIn dp.acc b :: deserialRun dp' bs :=
  ⟨(deserialStep dp b).2, by simp [deserialStep, h], by simp [deserialStep, h],
    by simp [deserialRun, deserialStep, h, shiftIn]⟩

/-- Any other bit of a byte is shifted in and counted. -/
theorem deserialRun_shift {dp : Datapath} (h : dp.bitPos + 1 ≠ 8) (b : Bool) (bs : List Bool) :
    ∃ dp', dp'.acc = shiftIn dp.acc b ∧ dp'.bitPos = dp.bitPos + 1 ∧ deserialRun dp (b :: bs) = deserialRun dp' bs :=
  ⟨(deserialStep dp b).2, by simp [deserialStep, h, shiftIn], by simp [deserialStep, h],
    by simp [deserialRun, deserialStep, h]⟩

/-- Bits that do not fill the byte emit nothing. -/
theorem deserialRun_partial {dp : Datapath} {g : List Bool} (h : dp.bitPos + g.length < 8) : deserialRun dp g = [] := by
  induction g generalizing dp with
  | nil => rfl
  | cons b g ih =>
    rw [List.length_cons] at h
    obtain ⟨dp', _, hpos, hrun⟩ := deserialRun_shift (dp := dp) (by omega) b g
    rw [hrun]; exact ih (by omega)

/-- Bits that fill the byte emit it and clear the registers. -/
theorem deserialRun_group {dp : Datapath} {g : List Bool} (hg : dp.bitPos + g.length = 8) (h0 : 0 < g.length)
    (rest : List Bool) : ∃ dp', dp'.acc = 0 ∧ dp'.bitPos = 0 ∧
      deserialRun dp (g ++ rest) = g.foldl shiftIn dp.acc :: deserialRun dp' rest := by
  induction g generalizing dp with
  | nil => cases h0
  | cons b g ih =>
    rw [List.length_cons] at hg
    rcases Nat.eq_zero_or_pos g.length with hl | hl
    · rw [List.eq_nil_of_length_eq_zero hl]
      exact deserialRun_emit (by omega) b rest
    · obtain ⟨dp', hacc, hpos, hrun⟩ := deserialRun_shift (dp := dp) (by omega) b (g ++ rest)
      obtain ⟨dp'', hacc'', hpos'', hrun''⟩ := ih (dp := dp') (by omega) hl
      exact ⟨dp'', hacc'', hpos'', by rw [List.cons_append, hrun, hrun'', hacc, List.foldl_cons]⟩

/-- The bytes of a sequence that starts with eight bits: theirs, and those of the rest (R111). -/
theorem bitsToBytes_append_group {g : List Bool} (hg : g.length = 8) (rest : List Bool) :
    bitsToBytes (g ++ rest) = byteAt (g ++ rest) 0 :: bitsToBytes rest := by
  have hlen : (g ++ rest).length / 8 = rest.length / 8 + 1 := by rw [List.length_append, hg]; omega
  have hbyte (i : Nat) : byteAt (g ++ rest) (i + 1) = byteAt rest i := by
    refine byte_ext fun j hj => ?_
    rw [byteAt_getLsbD _ _ hj, byteAt_getLsbD _ _ hj, List.getD_append_right _ _ _ _ (by omega), hg,
      show 8 * (i + 1) + j - 8 = 8 * i + j by omega]
  rw [bitsToBytes, hlen, List.range_succ_eq_map, List.map_cons, List.map_map, bitsToBytes]
  simp only [Function.comp_def, hbyte]

/-- From a cleared accumulator and count the deserializer gives the bytes of R111, the last partial group dropped. -/
theorem deserialRun_eq_bitsToBytes {dp : Datapath} (hacc : dp.acc = 0) (hpos : dp.bitPos = 0) (b : List Bool) :
    deserialRun dp b = bitsToBytes b := by
  induction hn : b.length using Nat.strong_induction_on generalizing dp b with
  | _ n ih =>
    rcases Nat.lt_or_ge b.length 8 with h | h
    · rw [deserialRun_partial (by omega), bitsToBytes, Nat.div_eq_of_lt h]; rfl
    · have hg : (b.take 8).length = 8 := by simpa using h
      obtain ⟨dp', hacc', hpos', hrun⟩ := deserialRun_group (dp := dp) (g := b.take 8) (by omega) (by omega) (b.drop 8)
      rw [← List.take_append_drop 8 b, hrun, bitsToBytes_append_group hg, foldl_shiftIn_eq_byteAt hg,
        ih (b.drop 8).length (by rw [List.length_drop]; omega) hacc' hpos' _ rfl]

/-- Settles O11: both hardware forms from the initialized registers. -/
theorem codecHardwareFormsAgree : Obligations.CodecHardwareFormsAgree := by
  refine ⟨fun d => ?_, deserialRun_eq_bitsToBytes rfl rfl⟩
  have hrun := serialRun_serialAt d (8 * d.length) 0
  simp only [Nat.zero_add] at hrun
  rw [show datapathStart = serialAt 0 from rfl, hrun]
  exact ⟨rfl, rfl⟩

end Sys2Proof.Machine

/-! PROOFS. The bus's byte order and the decoder invert their encodings, each way. -/

namespace Sys2Proof.Machine

/-! ### The byte order (R64) -/

theorem leBytes_getD {n j : Nat} (v : Word) (h : j < n) : (leBytes n v).getD j 0 = (v >>> (8 * j)).setWidth 8 :=
  getD_map_range h

/-- Words with the same four bytes are equal. -/
theorem word_ext {x y : Word}
    (h : ∀ j < 4, (x >>> (8 * j)).setWidth 8 = ((y >>> (8 * j)).setWidth 8 : Byte)) : x = y := by
  refine BitVec.eq_of_getLsbD_eq fun i hi => ?_
  have hbit := congrArg (·.getLsbD (i % 8)) (h (i / 8) (by omega))
  simpa [Nat.mod_lt, Nat.div_add_mod] using hbit

/-- Four bytes spell a word exactly when they are its bytes. -/
theorem leWord_eq_iff {bs : List Byte} (hlen : bs.length = 4) (w : Word) : leWord bs = w ↔ bs = leBytes 4 w := by
  constructor
  · rintro rfl
    refine eq_of_getD (x := 0) (by simp [hlen]) fun j hj => ?_
    rw [leBytes_getD _ (hlen ▸ hj), leWord_byte bs hlen.le j hj]
  · rintro rfl
    refine word_ext fun j hj => ?_
    rw [leWord_byte _ (by simp) j (by simpa using hj), leBytes_getD w hj]

/-! ### The decoder (R90, R92, R94) -/

/-- A word is its RSVD above its OP. -/
theorem rsvdField_append_opField (c : Word) : rsvdField c ++ opField c = c := by
  refine BitVec.eq_of_getLsbD_eq fun i hi => ?_
  rw [BitVec.getLsbD_append]
  rcases Nat.lt_or_ge i 4 with h | h
  · simp [opField, h]
  · simp [rsvdField, Nat.not_lt.2 h, Nat.add_sub_cancel' h, show i - 4 ≤ 27 by omega]

/-- A word is a command's exactly when RSVD is 0 and OP is the command's. -/
theorem eq_encode_iff (c : Word) (i : Instr) : c = encode i ↔ rsvdField c = 0 ∧ opField c = opOf i := by
  constructor
  · rintro rfl; cases i <;> decide
  · rintro ⟨hrsvd, hop⟩
    rw [← rsvdField_append_opField c, hrsvd, hop, encode]

/-- The opcode map names each command once. -/
theorem decodeOp_eq_cmd_iff (op : BitVec 4) (i : Instr) : decodeOp op = .cmd i ↔ op = opOf i := by
  revert op; cases i <;> decide

/-- The word that decodes to a command is the command's word, and no other (R94). -/
theorem decodeWord_eq_cmd_iff (c : Word) (i : Instr) : decodeWord c = .cmd i ↔ c = encode i := by
  rw [eq_encode_iff, ← decodeOp_eq_cmd_iff, decodeWord]
  split
  · exact (and_iff_right ‹_›).symm
  · exact iff_of_false (by simp) fun ⟨hrsvd, _⟩ => absurd hrsvd ‹_›

/-- The byte decoder decodes the word of the first four bytes and leaves the others (R90). -/
theorem decodeBytes_eq_word_iff {bs rest : List Byte} {d : Decoded} : decodeBytes bs = .word d rest ↔
    ∃ four : List Byte, four.length = 4 ∧ bs = four ++ rest ∧ decodeWord (leWord four) = d := by
  constructor
  · intro h
    unfold decodeBytes at h
    split at h
    · cases h; exact ⟨_, rfl, rfl, rfl⟩
    · cases h
  · rintro ⟨four, hlen, rfl, rfl⟩
    obtain ⟨b0, b1, b2, b3, rfl⟩ := List.length_eq_four.1 hlen
    rfl

/-- Settles O3: the first four bytes spell the command's word, so they are its bytes. -/
theorem decodeEncodeBytesAgree : Obligations.DecodeEncodeBytesAgree := by
  intro bs rest i
  rw [decodeBytes_eq_word_iff]
  constructor
  · rintro ⟨four, hlen, rfl, hdecode⟩
    rw [encodeBytes, ← (leWord_eq_iff hlen _).1 ((decodeWord_eq_cmd_iff _ i).1 hdecode)]
  · rintro rfl
    have hlen : (encodeBytes i).length = 4 := leBytes_length 4 _
    exact ⟨encodeBytes i, hlen, rfl, (decodeWord_eq_cmd_iff _ i).2 ((leWord_eq_iff hlen _).2 rfl)⟩

end Sys2Proof.Machine

/-! PROOFS. The bytes each command stores (R71, R91). -/

namespace Sys2Proof.Machine

/-- A run of `n` bytes of DATA stored is stored there alone. -/
theorem State.writeData_readsAsBut {s : State} {bs : List Byte} {n : Nat} (h : bs.length = n) :
    s.ReadsAsBut (s.writeData bs).mem (inData n) := fun _ ha => State.writeData_frame (h ▸ ha)

/-- A run of `n` blue bytes stored is stored there alone. -/
theorem State.writeBlue_readsAsBut {s : State} {bs : List Byte} {n : Nat} (h : bs.length = n) :
    s.ReadsAsBut (s.writeBlue bs).mem (inBlue n) := fun _ ha => State.writeBlue_frame (h ▸ ha)

/-- Settles O30: a command aborts, or stores one run of the length its rule gives. -/
theorem commandsStoreOnlyTheirBytes : Obligations.CommandsStoreOnlyTheirBytes := by
  intro s t
  refine ⟨fun h => ?nop, fun h => ?cipher, fun h => ?embed, fun h => ?recover, fun h => ?clear, fun h => ?hide,
    fun h => ?extract⟩
  case nop => cases h; exact fun _ _ => rfl
  case cipher =>
    rcases execCipher_next h with ⟨_, _, rfl⟩ | ⟨_, _, _, rfl⟩ | ⟨_, _, _, d, k, hd, _, rfl⟩
    · exact fun _ _ => rfl
    · exact fun _ _ => rfl
    · exact State.writeData_readsAsBut (by rw [applyKey_length, (State.dataBytes_eq_some.1 hd).1])
  case embed =>
    rcases execEmbed_next h with ⟨_, _, rfl⟩ | ⟨_, _, _, d, v, hd, hv, rfl⟩
    · exact fun _ _ => rfl
    · exact State.writeBlue_readsAsBut (embedded_length hv (State.dataBytes_eq_some.1 hd).1)
  case recover =>
    rcases execRecover_next h with ⟨_, _, rfl⟩ | ⟨_, _, v, hv, rfl⟩
    · exact fun _ _ => rfl
    · exact State.writeData_readsAsBut (recovered_length hv)
  case clear =>
    rcases execClear_next h with ⟨_, _, rfl⟩ | ⟨_, v, hv, rfl⟩
    · exact fun _ _ => rfl
    · exact State.writeBlue_readsAsBut (by rw [List.length_map, (State.blueBytes_eq_some.1 hv).1])
  case hide =>
    rcases execHide_next h with ⟨_, _, rfl⟩ | ⟨_, _, _, _, d, k, v, hd, _, hv, rfl⟩
    · exact fun _ _ => rfl
    · exact State.writeBlue_readsAsBut
        (embedded_length hv (by rw [frame_length, (State.dataBytes_eq_some.1 hd).1]))
  case extract =>
    rcases execExtract_next h with ⟨_, _, rfl⟩ | ⟨_, _, _, v, bs, hv, rfl, ⟨_, rfl⟩ | ⟨L, k, _, _, rfl⟩⟩
    · exact fun _ _ => rfl
    · exact State.writeData_readsAsBut (recovered_length hv)
    · exact State.writeData_readsAsBut ((deciphered_length ..).trans (recovered_length hv))

end Sys2Proof.Machine

/-! PROOFS. A host write of a buffer (R64, R68). -/

namespace Sys2Proof.Machine

/-- An idle write that reaches a buffer stores the value's bytes there. -/
theorem hostWrite_buffer {s : State} {a v : Word} {n : AccessSize} (hb : s.status.busy = false)
    (ht : target s.params a.toNat n.bytes = .buffer) :
    hostWrite a n v s = .next { s with mem := Memory.writeEvery 1 s.mem a.toNat (leBytes n.bytes v) } := by
  unfold hostWrite; rw [ht]; simp [hb]

/-- Settles O51: the access stores the run of the value's bytes, and a byte outside it is as before. -/
theorem hostWritesBuffer : Obligations.HostWritesBuffer := by
  intro s a v n rest hphase hbusy halign hin hhost
  refine ⟨Memory.writeEvery 1 s.mem a.toNat (leBytes n.bytes v), ?_, fun j hj => ?_, fun b hb => ?_⟩
  · rw [step_idleTurn hphase hhost]
    exact hostWrite_buffer (s := { s with host := rest }) hbusy (target_buffer halign hin)
  · rw [← leBytes_getD v hj, ← Nat.one_mul j, Memory.read_writeEvery Nat.one_pos (by simpa using hj), Nat.one_mul]
  · refine Memory.read_writeEvery_of_ne fun j hj => ?_
    rw [leBytes_length] at hj
    omega

end Sys2Proof.Machine

/-! PROOFS. The decoder by a word's value (R90, R92–R94), the abort of an illegal word (R203), and WAIT (R97). -/

namespace Sys2Proof.Machine

/-! ### The fields and the decoder by value -/

@[simp] theorem opField_toNat (c : Word) : (opField c).toNat = c.toNat % 16 := by simp [opField]

@[simp] theorem rsvdField_toNat (c : Word) : (rsvdField c).toNat = c.toNat / 16 := by
  simp only [rsvdField, BitVec.extractLsb_toNat, Nat.shiftRight_eq_div_pow]
  omega

theorem rsvdField_eq_zero_iff (c : Word) : rsvdField c = 0 ↔ c.toNat / 16 = 0 := by
  rw [← BitVec.toNat_inj, rsvdField_toNat]; rfl

/-- RSVD not 0 is illegal whatever OP holds (R93). -/
theorem decodeWord_rsvdNonzero {c : Word} (h : c.toNat / 16 ≠ 0) : decodeWord c = .illegal .rsvdNonzero :=
  if_neg (mt (rsvdField_eq_zero_iff c).1 h)

/-- With RSVD = 0, OP names its command (R92). -/
theorem decodeWord_op {c : Word} (i : Instr) (hrsvd : c.toNat / 16 = 0) (hop : c.toNat % 16 = (opOf i).toNat) :
    decodeWord c = .cmd i :=
  (decodeWord_eq_cmd_iff c i).2 ((eq_encode_iff c i).2
    ⟨(rsvdField_eq_zero_iff c).2 hrsvd, BitVec.eq_of_toNat_eq ((opField_toNat c).trans hop)⟩)

/-- The opcode map names no command from 7 up (R93). -/
theorem decodeOp_opReserved {op : BitVec 4} (h : 7 ≤ op.toNat) : decodeOp op = .illegal .opReserved := by
  revert op; decide

theorem decodeWord_opReserved {c : Word} (hrsvd : c.toNat / 16 = 0) (hop : 7 ≤ c.toNat % 16) :
    decodeWord c = .illegal .opReserved :=
  (if_pos ((rsvdField_eq_zero_iff c).2 hrsvd)).trans (decodeOp_opReserved (opField_toNat c ▸ hop))

/-- Settles O2: RSVD decides first, then OP; a command's word is its encoding. -/
theorem decodeIsTotalAndExact : Obligations.DecodeIsTotalAndExact := fun c =>
  ⟨decodeWord_rsvdNonzero,
    fun hrsvd => ⟨decodeWord_op .nop hrsvd, decodeWord_op .cipher hrsvd, decodeWord_op .embed hrsvd,
      decodeWord_op .recover hrsvd, decodeWord_op .clear hrsvd, decodeWord_op .hide hrsvd,
      decodeWord_op .extract hrsvd, decodeWord_opReserved hrsvd⟩,
    decodeWord_eq_cmd_iff c⟩

/-- Settles O1: each word of the opcode map and its refused neighbours, by their RSVD and OP. -/
theorem opcodeMapWordsDecode : Obligations.OpcodeMapWordsDecode :=
  ⟨decodeWord_op .nop rfl rfl, decodeWord_op .cipher rfl rfl, decodeWord_op .embed rfl rfl,
    decodeWord_op .recover rfl rfl, decodeWord_op .clear rfl rfl, decodeWord_op .hide rfl rfl,
    decodeWord_op .extract rfl rfl, decodeWord_opReserved rfl (by decide),
    decodeWord_rsvdNonzero (by decide), decodeWord_rsvdNonzero (by decide)⟩

/-! ### The abort of an illegal word -/

/-- Completion of an illegal word is the abort with ILLEGAL_CMD (R93, R203). -/
theorem complete_of_illegal {s : State} {why : IllegalWhy} (h : decodeWord s.snap.cmd = .illegal why) :
    complete s = .next (s.endsWith .illegalCmd) := by
  unfold complete; rw [h]; rfl

/-- Settles O26: the word is illegal for its RSVD or, RSVD being 0, for its OP. -/
theorem illegalWordAborts : Obligations.IllegalWordAborts := by
  intro s hturn hword
  rw [step_engineTurn hturn]
  by_cases hrsvd : s.snap.cmd.toNat / 16 = 0
  · exact complete_of_illegal (decodeWord_opReserved hrsvd (by omega))
  · exact complete_of_illegal (decodeWord_rsvdNonzero hrsvd)

/-! ### WAIT -/

/-- Settles O54: WAIT reads STATUS after the tick, which leaves BUSY, and puts itself back while BUSY = 1. -/
theorem waitPollsUntilIdle : Obligations.WaitPollsUntilIdle := by
  intro s rest hturn hhost
  rw [step_hostTurn hturn hhost]
  cases hbusy : s.status.busy <;> simp [hostOp, hostPoll, State.logRead, hbusy]

end Sys2Proof.Machine

/-! PROOFS. The bit codec by position (R110, R111), its round trip (R112), and the completion of RECOVER (R146). -/

namespace Sys2Proof.Machine

/-! ### The codec -/

/-- Bit `8i + j` of the stream is bit `7 − j` of byte i (R110). -/
theorem bitAt_byte (d : List Byte) (i : Nat) {j : Nat} (hj : j < 8) :
    bitAt d (8 * i + j) = (d.getD i 0).getLsbD (7 - j) := by
  unfold bitAt
  rw [show (8 * i + j) / 8 = i by omega, show (8 * i + j) % 8 = j by omega]

/-- Within its length, `bytes_to_bits` lists the stream's bits in order. -/
theorem bytesToBits_getElem? {d : List Byte} {t : Nat} (h : t < 8 * d.length) :
    (bytesToBits d)[t]? = some (bitAt d t) := by
  rw [bytesToBits, List.getElem?_map, List.getElem?_range h, Option.map_some]

/-- Settles O4: the stream's length, and its bit `8i + j` by position. -/
theorem bytesToBitsMsbFirst : Obligations.BytesToBitsMsbFirst := fun d =>
  ⟨bytesToBits_length d, fun i _ hi hj => by rw [bytesToBits_getElem? (by omega), bitAt_byte d i hj]⟩

/-- Settles O5: byte i is the byte of group i, whose bit `7 − j` is the group's bit j. -/
theorem bitsToBytesDropsPartialGroup : Obligations.BitsToBytesDropsPartialGroup := fun b =>
  ⟨bitsToBytes_length b, fun i _ hi hj => by rw [bitsToBytes_getD hi, byteAt_getLsbD b i hj]⟩

/-- Settles O6: the lengths agree, and bit `7 − j` of each byte goes to bit `8i + j` and comes back. -/
theorem bitCodecRoundTrip : Obligations.BitCodecRoundTrip := by
  intro x
  have hlen : (bytesToBits x).length / 8 = x.length := by rw [bytesToBits_length]; omega
  refine eq_of_getD (x := 0) ((bitsToBytes_length _).trans hlen) fun i hi => byte_ext fun j hj => ?_
  rw [bitsToBytes_length] at hi
  calc ((bitsToBytes (bytesToBits x)).getD i 0).getLsbD (7 - j)
      = (bytesToBits x).getD (8 * i + j) false := by rw [bitsToBytes_getD hi, byteAt_getLsbD _ i hj]
    _ = bitAt x (8 * i + j) := bytesToBits_getD (by omega)
    _ = (x.getD i 0).getLsbD (7 - j) := bitAt_byte x i hj

/-! ### RECOVER -/

/-- A normal end that stored recovered bytes: the run stored in DATA and its length in RECOV_LEN (R146, R204). -/
theorem State.writeRecovered_completes (s : State) (bs : List Byte) :
    (s.writeRecovered bs).usedDatapath.finish =
      { s.completes (s.writeData bs).mem with recovLen := BitVec.ofNat 32 bs.length } := rfl

/-- RECOVER past its checks, its window read as `v`: the bytes of the window's channel bits are stored. -/
theorem execRecover_ok {s : State} (hD : s.DimOk) (hM : s.MOk) {v : List Byte} (hv : s.blueBytes s.nbits = some v) :
    exec .recover s = .next { s.completes (s.writeData (bitsToBytes (v.map channelBit))).mem with
      recovLen := BitVec.ofNat 32 s.recovered } := by
  rw [execRecover_pass hD hM, recoverBytes, hv, needBytes_some, State.writeRecovered_completes, recovered_length hv]

/-- Settles O18: the bytes stored in DATA[0:R] are those the window's channel bits spell. -/
theorem recoverReadsBits : Obligations.RecoverReadsBits := by
  intro s hD hM hw
  obtain ⟨v, hv⟩ := State.blueBytes_of_written hw
  have hlen := recovered_length hv
  refine ⟨_, execRecover_ok hD hM hv, fun i hi => ⟨_, State.writeData_read (hlen ▸ hi), fun j hj => ?_⟩,
    State.writeData_readsAsBut hlen⟩
  exact ⟨_, recovered_bit hv hi hj⟩

end Sys2Proof.Machine

/-! PROOFS. `apply` by position (R120) and its laws (R121, R122), the XOR engine (R124), and CIPHER, run
once and twice (R125). -/

namespace Sys2Proof.Machine

/-! ### The cipher -/

/-- The empty key is the identity (R120). -/
theorem applyKey_of_empty {k : List Byte} (h : k.length = 0) (d : List Byte) : applyKey d k = d := if_pos h

/-- Settles O7: the empty key's branch, and byte i of the other. -/
theorem applyIsRepeatingXor : Obligations.ApplyIsRepeatingXor := by
  refine fun d k => ⟨fun h => applyKey_of_empty h d, fun _ => ⟨applyKey_length d k, fun i hi => ?_⟩⟩
  rw [← applyKey_getD hi, List.getD_eq_getElem?_getD, List.getElem?_eq_getElem (by simpa using hi), Option.getD_some]

/-- The involution law: each byte meets the same key byte twice (R121). -/
theorem applyKey_applyKey (x k : List Byte) : applyKey (applyKey x k) k = x := by
  refine eq_of_getD (x := 0) (by simp) fun i hi => ?_
  simp only [applyKey_length] at hi
  rw [applyKey_getD (by simpa using hi), applyKey_getD hi, BitVec.xor_assoc, BitVec.xor_self, BitVec.xor_zero]

/-- The first L bytes are ciphered as they are within the whole sequence (R122). -/
theorem take_applyKey (x k : List Byte) (L : Nat) : (applyKey x k).take L = applyKey (x.take L) k := by
  refine eq_of_getD (x := 0) (by simp) fun i hi => ?_
  simp only [List.length_take, applyKey_length] at hi
  rw [getD_take (by omega), applyKey_getD (by omega), applyKey_getD (by simpa using hi), getD_take (by omega)]

/-- Settles O8: the involution law, the empty key and the first L bytes. -/
theorem applyInvolutionAndPrefix : Obligations.ApplyInvolutionAndPrefix := fun x k =>
  ⟨applyKey_applyKey x k, applyKey_of_empty rfl x, take_applyKey x k⟩

/-! ### The XOR engine (R124) -/

/-- With a key, the counter gives its key byte and steps modulo K. -/
theorem xorStep_keyed {k : List Byte} {dp : Datapath} (hidx : dp.keyIdx < k.length) (b : Byte) :
    xorStep k dp b = (b ^^^ k.getD dp.keyIdx 0,
      { dp with byteIdx := dp.byteIdx + 1, keyIdx := (dp.keyIdx + 1) % k.length }) := by
  have hwrap : (if dp.keyIdx + 1 = k.length then 0 else dp.keyIdx + 1) = (dp.keyIdx + 1) % k.length := by
    split
    · next h => rw [h, Nat.mod_self]
    · exact (Nat.mod_eq_of_lt (by omega)).symm
  rw [xorStep, if_neg (by omega), hwrap]

theorem xorRun_of_empty {k : List Byte} (h : k.length = 0) (dp : Datapath) (d : List Byte) : xorRun k dp d = d := by
  induction d generalizing dp with
  | nil => rfl
  | cons b d ih => rw [xorRun, ih, xorStep, if_pos h]

@[simp] theorem xorRun_length (k : List Byte) (dp : Datapath) (d : List Byte) : (xorRun k dp d).length = d.length := by
  induction d generalizing dp with
  | nil => rfl
  | cons b d ih => rw [xorRun, List.length_cons, ih, List.length_cons]

/-- From any counter below K, the engine's byte i meets the key byte i places on, modulo K. -/
theorem xorRun_getD {k : List Byte} {dp : Datapath} (hidx : dp.keyIdx < k.length) {d : List Byte} {i : Nat}
    (hi : i < d.length) : (xorRun k dp d).getD i 0 = d.getD i 0 ^^^ k.getD ((dp.keyIdx + i) % k.length) 0 := by
  induction d generalizing dp i with
  | nil => cases hi
  | cons b d ih =>
    rw [xorRun, xorStep_keyed hidx]
    cases i with
    | zero => simp [Nat.mod_eq_of_lt hidx]
    | succ i =>
      have hnext : (dp.keyIdx + 1) % k.length < k.length := Nat.mod_lt _ (by omega)
      rw [List.getD_cons_succ, List.getD_cons_succ, ih hnext (Nat.lt_of_succ_lt_succ hi), Nat.mod_add_mod,
        Nat.add_right_comm, Nat.add_assoc]

/-- Settles O12: with a key, the counter starts at 0 and so is `i mod K` at byte i. -/
theorem xorEngineIsApply : Obligations.XorEngineIsApply := by
  intro d k
  rcases Nat.eq_zero_or_pos k.length with h0 | h0
  · rw [xorRun_of_empty h0, applyKey_of_empty h0]
  · refine eq_of_getD (x := 0) (by simp) fun i hi => ?_
    rw [xorRun_length] at hi
    rw [applyKey_getD hi, xorRun_getD (dp := datapathStart) h0 hi]
    simp [datapathStart]

/-! ### CIPHER (R125) -/

/-- CIPHER past its checks with a key, DATA[0:N] read as `d` and the key bytes as `k`. -/
theorem execCipher_keyed {s : State} (hN : s.NOk) (hK : s.KOk) (h0 : 0 < s.lenK) {d k : List Byte}
    (hd : s.dataBytes s.lenN = some d) (hk : s.keyBytes s.lenN = some k) :
    exec .cipher s = .next (s.completes (s.writeData (applyKey d k)).mem) := by
  rw [execCipher_pass hN hK, cipherData_keyed h0, hd, needBytes_some, hk, needBytes_some]
  rfl

/-- CIPHER past its checks with an empty key: no byte is read or written. -/
theorem execCipher_empty {s : State} (hN : s.NOk) (hK : s.KOk) (h0 : s.lenK = 0) :
    exec .cipher s = .next (s.endsWith .none) := by
  rw [execCipher_pass hN hK, cipherData, if_pos h0, State.finish_eq]

/-- Below `n`, the first `min n K` bytes of a key of length K repeat as the whole key does. -/
theorem mod_min_of_lt {i n : Nat} (h : i < n) (K : Nat) : i % min n K = i % K := by
  rcases Nat.le_total n K with hle | hle
  · rw [Nat.min_eq_left hle, Nat.mod_eq_of_lt h, Nat.mod_eq_of_lt (by omega)]
  · rw [Nat.min_eq_right hle]

/-- Byte i of the ciphered run is DATA[i] xor KEY[i mod K]. -/
theorem State.ciphered_byte {s : State} {d k : List Byte} {n : Nat} (h0 : 0 < s.lenK) (hd : s.dataBytes n = some d)
    (hk : s.keyBytes n = some k) {i : Nat} (hi : i < n) :
    ∃ b c, s.data i = some b ∧ s.key (i % s.lenK) = some c ∧ (applyKey d k).getD i 0 = b ^^^ c := by
  obtain ⟨hdl, hdr⟩ := State.dataBytes_eq_some.1 hd
  obtain ⟨hkl, hkr⟩ := State.keyBytes_eq_some.1 hk
  have hlt : i % s.lenK < min n s.lenK := lt_min ((Nat.mod_le ..).trans_lt hi) (Nat.mod_lt _ h0)
  exact ⟨_, _, hdr i hi, hkr _ hlt, by rw [applyKey_getD (hdl.symm ▸ hi), hkl, mod_min_of_lt hi]⟩

/-- Settles O16: the run stored is DATA[0:N] ciphered with the key bytes read. -/
theorem cipherXorsData : Obligations.CipherXorsData := by
  refine fun s hN hK => ⟨fun h0 hdata hkey => ?_, execCipher_empty hN hK⟩
  obtain ⟨d, hd⟩ := State.dataBytes_of_written hdata
  obtain ⟨k, hk⟩ := State.keyBytes_of_written hkey
  have hlen : (applyKey d k).length = s.lenN := (applyKey_length d k).trans (State.dataBytes_eq_some.1 hd).1
  refine ⟨_, execCipher_keyed hN hK h0 hd hk, fun i hi => ?_, State.writeData_readsAsBut hlen⟩
  obtain ⟨b, c, hb, hc, hx⟩ := State.ciphered_byte h0 hd hk hi
  exact ⟨b, c, hb, hc, by rw [State.writeData_read (hlen ▸ hi), hx]⟩

/-! ### CIPHER twice (R121, R125) -/

/-- CIPHER gets to its bytes: its checks pass and its key is not empty (R125). -/
def State.Ciphers (s : State) : Prop := s.NOk ∧ s.KOk ∧ 0 < s.lenK

/-- A completed CIPHER that got to its bytes stored the ciphered run. -/
theorem State.Ciphers.mem {s t : State} (hs : s.Ciphers) (h : exec .cipher s = .next t) :
    ∃ d k, s.dataBytes s.lenN = some d ∧ s.keyBytes s.lenN = some k ∧ t.mem = (s.writeData (applyKey d k)).mem := by
  obtain ⟨hN, hK, h0⟩ := hs
  rw [execCipher_pass hN hK, cipherData_keyed h0] at h
  obtain ⟨d, hd, h⟩ := needBytes_eq_next.1 h
  obtain ⟨k, hk, h⟩ := needBytes_eq_next.1 h
  cases h
  exact ⟨d, k, hd, hk, rfl⟩

/-- A CIPHER that aborts or has an empty key stores nothing. -/
theorem execCipher_mem_of_not_ciphers {s t : State} (hs : ¬ s.Ciphers) (h : exec .cipher s = .next t) :
    t.mem = s.mem := by
  rcases execCipher_next h with ⟨_, _, rfl⟩ | ⟨_, _, _, rfl⟩ | ⟨hN, hK, h0, _⟩
  · rfl
  · rfl
  · exact absurd ⟨hN, hK, h0⟩ hs

/-- A completion keeps the snapshot and the parameters, and so the lengths and what the checks on them say. -/
theorem State.Ends.keepsLengths {s t : State} (h : s.Ends t) :
    t.lenN = s.lenN ∧ t.lenK = s.lenK ∧ (t.Ciphers ↔ s.Ciphers) := by
  obtain ⟨hparams, -⟩ := h.keepsConfiguration
  obtain ⟨-, hsnap, -⟩ := h.keepsHost
  simp only [State.Ciphers, State.NOk, State.KOk, State.lenN, State.lenK, hparams, hsnap, and_self]

/-- No command changes the key bytes that a next one reads (R41). -/
theorem exec_keyBytes {i : Instr} {s t : State} (hp : s.params.Legal) (hK : s.KOk) (h : exec i s = .next t) (n : Nat) :
    t.keyBytes n = s.keyBytes n := by
  obtain ⟨-, hlenK, -⟩ := (exec_ends h).keepsLengths
  obtain ⟨hkey, -⟩ := buffersWrittenOnlyByTheirCommands i s t hp h
  rw [State.keyBytes, hlenK]
  exact Memory.readEvery_congr fun j hj => by rw [keyAddr_add]; exact hkey j (hj.trans_le ((min_le_right ..).trans hK))

/-- A run of DATA stored reads back. -/
theorem State.dataBytes_of_writeData {s t : State} {bs : List Byte} (h : t.mem = (s.writeData bs).mem) :
    t.dataBytes bs.length = some bs :=
  State.dataBytes_eq_some.2 ⟨rfl, fun _ hi => by rw [State.data, h]; exact State.writeData_read hi⟩

/-- Storing over a run of DATA and then storing back the bytes that stood there restores every byte. -/
theorem State.writeData_restores {s t : State} {d e : List Byte} (hd : s.dataBytes e.length = some d)
    (ht : t.mem = (s.writeData e).mem) (a : Nat) : (t.writeData d).mem.read a = s.mem.read a := by
  obtain ⟨hlen, hold⟩ := State.dataBytes_eq_some.1 hd
  by_cases ha : inData e.length a
  · obtain ⟨i, hi, rfl⟩ := ha
    rw [State.writeData_read (hlen.symm ▸ hi)]
    exact (hold i hi).symm
  · rw [State.writeData_frame (hlen.symm ▸ ha), ht, State.writeData_frame ha]

/-- Settles O35: the second CIPHER does as the first did, and with a key it stores DATA[0:N] ciphered twice. -/
theorem cipherTwiceRestores : Obligations.CipherTwiceRestores := by
  intro s t u hp hst htu a
  obtain ⟨hlenN, -, hiff⟩ := (exec_ends hst).keepsLengths
  by_cases hs : s.Ciphers
  · obtain ⟨d, k, hd, hk, ht⟩ := hs.mem hst
    obtain ⟨d', k', hd', hk', hu⟩ := (hiff.2 hs).mem htu
    obtain ⟨-, hK, -⟩ := hs
    have hlen : (applyKey d k).length = s.lenN := (applyKey_length d k).trans (State.dataBytes_eq_some.1 hd).1
    have hdata : d' = applyKey d k := by
      rw [hlenN, ← hlen, State.dataBytes_of_writeData ht] at hd'
      exact (Option.some.inj hd').symm
    have hkey : k' = k := by
      rw [hlenN, exec_keyBytes hp hK hst, hk] at hk'
      exact (Option.some.inj hk').symm
    rw [hu, hdata, hkey, applyKey_applyKey]
    exact State.writeData_restores (hlen ▸ hd) ht a
  · rw [execCipher_mem_of_not_ciphers (mt hiff.1 hs) htu, execCipher_mem_of_not_ciphers hs hst]

end Sys2Proof.Machine

/-! PROOFS. The framed stream (R131), `find` as the least position of the sentinel (R132) and as the sliding-window search
(R136), and the completions of HIDE (R161) and of EXTRACT (R162). -/

namespace Sys2Proof.Machine

/-! ### The framed stream (R131) -/

/-- Settles O9: the definition of `frame`, and the lengths of a framed payload and of its bits. -/
theorem frameAppendsSentinel : Obligations.FrameAppendsSentinel := fun p k =>
  ⟨rfl, frame_length p k, by rw [bytesToBits_length, frame_length]⟩

/-! ### The search (R132) -/

theorem sentinelAt_iff {s : List Byte} {L : Nat} : sentinelAt s L = true ↔ (s.drop L).take 6 = sentinel := beq_iff_eq

/-- A sentinel stands inside the sequence, all six bytes of it. -/
theorem le_length_of_sentinelAt {s : List Byte} {L : Nat} (h : sentinelAt s L = true) : L + 6 ≤ s.length := by
  have hlen := congrArg List.length (sentinelAt_iff.1 h)
  simp only [List.length_take, List.length_drop, sentinel_length] at hlen
  omega

/-- `find` answers the least position of the sentinel. -/
theorem findSentinel_eq_some_iff {s : List Byte} {L : Nat} :
    findSentinel s = some L ↔ sentinelAt s L = true ∧ ∀ L' < L, sentinelAt s L' = false := by
  simp only [findSentinel, List.find?_range_eq_some, List.mem_range, sentinel_length, Bool.not_eq_eq_eq_not,
    Bool.not_true]
  refine and_congr_right fun h => and_iff_right ?_
  have := le_length_of_sentinelAt h
  omega

/-- `find` answers NONE when the sentinel stands nowhere in the sequence. -/
theorem findSentinel_eq_none_iff {s : List Byte} :
    findSentinel s = none ↔ ∀ L, L + 6 ≤ s.length → sentinelAt s L = false := by
  simp only [findSentinel, List.find?_range_eq_none, sentinel_length, Bool.not_eq_eq_eq_not, Bool.not_true]
  exact forall_congr' fun L => imp_congr_left (by omega)

/-- Settles O10: the bound `L + 6 ≤ len(s)` of R132 comes with any position of the sentinel. -/
theorem findIsLeastSentinel : Obligations.FindIsLeastSentinel := by
  intro s
  have hat (L : Nat) : (s.drop L).take 6 = [0x24, 0x53, 0x54, 0x4F, 0x50, 0x24] ↔ sentinelAt s L = true :=
    sentinelAt_iff.symm
  simp only [Ne, hat, Bool.not_eq_true, findSentinel_eq_some_iff, findSentinel_eq_none_iff, and_true]
  exact fun L => and_congr_left' (iff_and_self.2 le_length_of_sentinelAt)

/-! ### The sliding window (R136) -/

/-- A position that ends inside `s` is a sentinel of `s` followed by more bytes exactly when it is one of `s`. -/
theorem sentinelAt_append {s : List Byte} {L : Nat} (h : L + 6 ≤ s.length) (r : List Byte) :
    sentinelAt (s ++ r) L = sentinelAt s L := by
  rw [sentinelAt, sentinelAt, List.drop_append_of_le_length (by omega),
    List.take_append_of_le_length (by rw [List.length_drop, sentinel_length]; omega)]

/-- A tail of at most six bytes is the sentinel exactly when the sentinel stands where it starts. -/
theorem drop_eq_sentinel_iff {s : List Byte} {L : Nat} (h : s.length ≤ L + 6) :
    s.drop L = sentinel ↔ sentinelAt s L = true := by
  rw [sentinelAt_iff, List.take_of_length_le (by rw [List.length_drop]; omega)]

/-- With one byte more, `find` answers what it answered before, or else the sentinel that this byte ends. -/
theorem findSentinel_concat (s : List Byte) (b : Byte) :
    findSentinel (s ++ [b]) =
      if findSentinel s = none ∧ sentinelAt (s ++ [b]) (s.length + 1 - 6) = true then some (s.length + 1 - 6)
      else findSentinel s := by
  cases hs : findSentinel s with
  | some L =>
    obtain ⟨hat, hleast⟩ := findSentinel_eq_some_iff.1 hs
    have hle := le_length_of_sentinelAt hat
    rw [if_neg (by simp), findSentinel_eq_some_iff, sentinelAt_append hle]
    exact ⟨hat, fun L' hL' => (sentinelAt_append (by omega) _).trans (hleast L' hL')⟩
  | none =>
    have hnone := findSentinel_eq_none_iff.1 hs
    have hbefore {L : Nat} (hL : L + 6 ≤ s.length) : sentinelAt (s ++ [b]) L = false :=
      (sentinelAt_append hL _).trans (hnone L hL)
    split
    · next h => exact findSentinel_eq_some_iff.2 ⟨h.2, fun L' hL' => hbefore (by omega)⟩
    · next h =>
      refine findSentinel_eq_none_iff.2 fun L hle => ?_
      rw [List.length_append, List.length_singleton] at hle
      rcases Nat.lt_or_ge s.length (L + 6) with hlast | hinside
      · rw [show L = s.length + 1 - 6 by omega]
        exact Bool.eq_false_iff.2 fun hat => h ⟨rfl, hat⟩
      · exact hbefore hinside

/-- The registers of the search after the bytes `s`: their number, the last six of them, and where `find` finds. -/
def searchAfter (s : List Byte) : Datapath :=
  { datapathStart with byteIdx := s.length, window := s.drop (s.length - 6), hit := findSentinel s }

theorem searchStep_searchAfter (s : List Byte) (b : Byte) :
    searchStep (searchAfter s) b = searchAfter (s ++ [b]) := by
  have hwindow : (s.drop (s.length - 6) ++ [b]).drop ((s.drop (s.length - 6)).length + 1 - 6) =
      (s ++ [b]).drop (s.length + 1 - 6) := by
    rw [← List.drop_append_of_le_length (by omega), List.drop_drop, List.length_drop]
    congr 1; omega
  have hmatch := drop_eq_sentinel_iff (s := s ++ [b]) (L := s.length + 1 - 6) (by simp; omega)
  simp only [searchStep, searchAfter, sentinel_length, hwindow, hmatch, ← findSentinel_concat, List.length_append,
    List.length_singleton]

theorem foldl_searchStep (s : List Byte) : s.foldl searchStep datapathStart = searchAfter s := by
  induction s using List.reverseRecOn with
  | nil => rfl
  | append_singleton s b ih => rw [List.foldl_append, ih]; exact searchStep_searchAfter s b

/-- Settles O13: what the search registers hold after the last byte. -/
theorem windowSearchIsFind : Obligations.WindowSearchIsFind := fun s =>
  congrArg Datapath.hit (foldl_searchStep s)

/-! ### HIDE (R161) -/

/-- HIDE past its checks, its payload `d`, its key `k` and the blue bytes `v`: the framed bits are embedded. -/
theorem execHide_ok {s : State} (hD : s.DimOk) (hN : s.NOk) (hK : s.KOk) (hc : 8 * (s.lenN + 6) ≤ s.cap)
    {d k v : List Byte} (hd : s.DataIs d) (hk : s.KeyIs k s.lenN) (hv : s.blueBytes (8 * (frame d k).length) = some v) :
    exec .hide s = .next (s.completes (s.writeBlue (List.zipWith insertBit v (bytesToBits (frame d k)))).mem) := by
  obtain ⟨k', hk', happly⟩ := hk.bytes
  have hframe : frame d k' = frame d k := congrArg (· ++ sentinel) (happly d hd.1)
  rw [execHide_pass hD hN hK hc, State.dataBytes_eq_some.2 hd, needBytes_some, hk', needBytes_some, hframe,
    embedBytes_ok hv]

/-- Settles O20: HIDE embeds the framed stream, whose bit t goes to pixel t. -/
theorem hideWritesFramedBits : Obligations.HideWritesFramedBits := by
  intro s d k hD hN hK hc hd hk hw
  have hlen : (frame d k).length = s.lenN + 6 := by rw [frame_length, hd.1]
  obtain ⟨v, hv⟩ := State.blueBytes_of_written (hlen ▸ hw)
  refine ⟨_, execHide_ok hD hN hK hc hd hk hv, fun t ht => ?_, State.writeBlue_readsAsBut ?_⟩
  · rw [← hlen] at ht
    obtain ⟨-, hblue⟩ := State.blueBytes_eq_some.1 hv
    exact ⟨_, hblue t ht, by rw [State.embedded_read hv ht, insertBit_bitAt, frame]⟩
  · rw [embedded_length hv rfl, hlen]

/-! ### EXTRACT (R162) -/

/-- A run of DATA stored reads back, by position. -/
theorem State.writeData_read_getElem? {s : State} {bs : List Byte} {i : Nat} (h : i < bs.length) :
    (s.writeData bs).mem.read (dataAddr i) = bs[i]? := by
  rw [State.writeData_read h, List.getD_eq_getElem?_getD, List.getElem?_eq_getElem h, Option.getD_some]

/-- EXTRACT past its checks with the sentinel at `L` of the bytes `bs` its window spells: the first `L` of them are stored
deciphered and the rest raw. -/
theorem execExtract_found {s : State} (hD : s.DimOk) (hK : s.KOk) (hM : s.MOk) (hw : s.BlueWritten s.nbits)
    {bs k : List Byte} {L : Nat} (hbs : s.WindowSpells bs) (hf : findSentinel bs = some L) (hk : s.KeyIs k L) :
    exec .extract s = .next { s.completes (s.writeData (applyKey (bs.take L) k ++ bs.drop L)).mem with
      status := { s.status with busy := false, done := true, err := .none, result := .found }
      recovLen := BitVec.ofNat 32 s.recovered
      foundLen := BitVec.ofNat 32 L } := by
  obtain ⟨k', hk', happly⟩ := hk.bytes
  have hle := findSentinel_le hf
  rw [execExtract_pass hD hK hM, recoverBytes_spells hw hbs, extractBytes_found hf, hk', needBytes_some,
    happly _ (List.length_take_of_le (by omega)), ← hbs.1, ← deciphered_length bs k L]
  rfl

/-- EXTRACT past its checks with no sentinel in the bytes `bs` its window spells: they are stored raw. -/
theorem execExtract_notFound {s : State} (hD : s.DimOk) (hK : s.KOk) (hM : s.MOk) (hw : s.BlueWritten s.nbits)
    {bs : List Byte} (hbs : s.WindowSpells bs) (hf : findSentinel bs = none) :
    exec .extract s = .next { s.completes (s.writeData bs).mem with
      status := { s.status with busy := false, done := true, err := .none, result := .notFound }
      recovLen := BitVec.ofNat 32 s.recovered } := by
  rw [execExtract_pass hD hK hM, recoverBytes_spells hw hbs, extractBytes, hf, ← hbs.1]
  rfl

/-- Settles O21: below L the stored run is deciphered, and from L on it is the recovered bytes. -/
theorem extractFoundDeciphers : Obligations.ExtractFoundDeciphers := by
  intro s bs k L hD hK hM hw hbs hf hk
  have hle := findSentinel_le hf
  have hfirst : (applyKey (bs.take L) k).length = L := by rw [applyKey_length, List.length_take_of_le (by omega)]
  have hlen : (applyKey (bs.take L) k ++ bs.drop L).length = s.recovered := (deciphered_length ..).trans hbs.1
  refine ⟨_, execExtract_found hD hK hM hw hbs hf hk, fun i hi => ?_, fun i hi hLi => ?_,
    State.writeData_readsAsBut hlen⟩
  · rw [State.writeData_read_getElem? (by rw [deciphered_length]; omega), List.getElem?_append_left (by omega)]
  · rw [State.writeData_read_getElem? (by omega), List.getElem?_append_right (by omega), List.getElem?_drop, hfirst,
      Nat.add_sub_cancel' hLi]

/-- Settles O22: the stored run is the recovered bytes. -/
theorem extractNotFoundKeepsRaw : Obligations.ExtractNotFoundKeepsRaw := by
  intro s bs hD hK hM hw hbs hf
  exact ⟨_, execExtract_notFound hD hK hM hw hbs hf,
    fun i hi => State.writeData_read_getElem? (hbs.1 ▸ hi), State.writeData_readsAsBut hbs.1⟩

end Sys2Proof.Machine

/-! PROOFS. The LSB channel: a command that gets to its pixels is a pass over them, and from that the completions of
EMBED (R145) and CLEAR (R147), the capacity abort (R142, R163), and the laws of R148, R149, R167 and R168. -/

namespace Sys2Proof.Machine

/-! ### One bit too many (R142, R163) -/

/-- Settles O25: the checks before the capacity's pass, and it fails. -/
theorem capacityExceededAborts : Obligations.CapacityExceededAborts := by
  intro s hD hN
  refine ⟨fun hc => ?embed, fun hK hc => ?hide⟩
  case embed =>
    exact validated_err (by simp [(checkDim_eq_none s).2 hD, (checkN_eq_none s).2 hN, checkCapacity_bad hc])
  case hide =>
    exact validated_err (by
      simp [(checkDim_eq_none s).2 hD, (checkN_eq_none s).2 hN, (checkK_eq_none s).2 hK, checkCapacity_bad hc])

/-- Two states with one W and H and one set of parameters have one capacity, and raise DIM_RANGE alike (R141, R200). -/
theorem State.sameImage {s t : State} (hparams : t.params = s.params) (hw : t.snap.w = s.snap.w)
    (hh : t.snap.h = s.snap.h) : t.cap = s.cap ∧ (t.DimOk ↔ s.DimOk) := by
  simp only [State.DimOk, State.cap, hparams, hw, hh, and_self]

/-! ### Blue bytes rewritten one by one -/

/-- Memory `m` is that of `s` with `g p` run on the blue byte of each pixel `p < n`, all of them written before. -/
structure State.RewritesBlue (s : State) (n : Nat) (g : Nat → Byte → Byte) (m : Memory) : Prop where
  pixel : ∀ p < n, ∃ b, s.blue p = some b ∧ m.read (blueAddr p) = some (g p b)
  frame : s.ReadsAsBut m (inBlue n)

theorem getD_mapIdx {α β : Type} {f : Nat → α → β} {l : List α} {i : Nat} {x : α} {y : β} (h : i < l.length) :
    (l.mapIdx f).getD i y = f i (l.getD i x) := by
  simp [List.getD, h]

theorem State.writeBlue_mapIdx {s : State} {n : Nat} {v : List Byte} (hv : s.blueBytes n = some v)
    (g : Nat → Byte → Byte) : s.RewritesBlue n g (s.writeBlue (v.mapIdx g)).mem := by
  obtain ⟨hlen, hblue⟩ := State.blueBytes_eq_some.1 hv
  refine ⟨fun p hp => ⟨_, hblue p hp, ?_⟩, State.writeBlue_readsAsBut (by rw [List.length_mapIdx, hlen])⟩
  rw [State.writeBlue_read (by rw [List.length_mapIdx, hlen]; exact hp), getD_mapIdx (x := 0) (hlen ▸ hp)]

/-- Rewriting again in a way that a second time changes nothing leaves every byte. -/
theorem State.RewritesBlue.twice {s t : State} {n : Nat} {g : Nat → Byte → Byte} {m : Memory}
    (hg : ∀ p b, g p (g p b) = g p b) (hst : s.RewritesBlue n g t.mem) (htm : t.RewritesBlue n g m) (a : Nat) :
    m.read a = t.mem.read a := by
  by_cases ha : inBlue n a
  · obtain ⟨p, hp, rfl⟩ := ha
    obtain ⟨b, _, ht⟩ := hst.pixel p hp
    obtain ⟨c, hc, hm⟩ := htm.pixel p hp
    have hcb : c = g p b := Option.some.inj (hc.symm.trans ht)
    rw [hm, ht, hcb, hg]
  · exact htm.frame a ha

/-! ### An image command as a pass over pixels -/

/-- An image command past its checks, the payload and the key bytes it needs read: how many pixels it visits, and what
it does to the blue byte of each (R145, R147, R161). -/
inductive State.ImagePass (s : State) : Instr → Nat → (Nat → Byte → Byte) → Prop where
  | clear (hD : s.DimOk) : State.ImagePass s .clear s.cap fun _ => clearBit
  | embed {d : List Byte} (hD : s.DimOk) (hN : s.NOk) (hc : 8 * s.lenN ≤ s.cap) (hd : s.dataBytes s.lenN = some d) :
      State.ImagePass s .embed (8 * s.lenN) fun p b => insertBit b (bitAt d p)
  | hide {d k : List Byte} (hD : s.DimOk) (hN : s.NOk) (hK : s.KOk) (hc : 8 * (s.lenN + 6) ≤ s.cap)
      (hd : s.dataBytes s.lenN = some d) (hk : s.keyBytes s.lenN = some k) :
      State.ImagePass s .hide (8 * (s.lenN + 6)) fun p b => insertBit b (bitAt (frame d k) p)

/-- Embedding inserts bit `p` of the stream at pixel `p` (R110, R143). -/
theorem zipWith_insertBit_bytesToBits {v bs : List Byte} (h : v.length = 8 * bs.length) :
    List.zipWith insertBit v (bytesToBits bs) = v.mapIdx fun p b => insertBit b (bitAt bs p) := by
  refine eq_of_getD (x := 0) (by simp [h]) fun p hp => ?_
  rw [List.length_zipWith, bytesToBits_length] at hp
  rw [getD_zipWith (x := 0) (y := false) (by omega) (by rw [bytesToBits_length]; omega), bytesToBits_getD (by omega),
    getD_mapIdx (x := 0) (by omega)]

theorem embedBytes_eq_pass {s : State} {bs : List Byte} {n : Nat} (hn : bs.length = n) :
    embedBytes bs s = needBytes (s.blueBytes (8 * n)) fun v =>
      .next (s.completes (s.writeBlue (v.mapIdx fun p b => insertBit b (bitAt bs p))).mem) := by
  subst hn
  cases hv : s.blueBytes (8 * bs.length) with
  | none => exact needBytes_of_none hv
  | some v => rw [embedBytes_ok hv, zipWith_insertBit_bytesToBits (State.blueBytes_eq_some.1 hv).1, needBytes_some]

/-- A pass reads the blue bytes of its pixels and completes with them rewritten. -/
theorem State.ImagePass.exec_eq {s : State} {i : Instr} {n : Nat} {g : Nat → Byte → Byte} (h : s.ImagePass i n g) :
    exec i s = needBytes (s.blueBytes n) fun v => .next (s.completes (s.writeBlue (v.mapIdx g)).mem) := by
  cases h with
  | clear hD =>
    have hmap (v : List Byte) : v.map clearBit = v.mapIdx fun _ => clearBit :=
      List.ext_getElem (by simp) (by simp)
    rw [execClear_pass hD]
    simp only [hmap]
    rfl
  | embed hD hN hc hd =>
    rw [execEmbed_pass hD hN hc, hd, needBytes_some, embedBytes_eq_pass (State.dataBytes_eq_some.1 hd).1]
  | hide hD hN hK hc hd hk =>
    rw [execHide_pass hD hN hK hc, hd, needBytes_some, hk, needBytes_some,
      embedBytes_eq_pass (by rw [frame_length, (State.dataBytes_eq_some.1 hd).1])]

theorem State.ImagePass.completes {s : State} {i : Instr} {n : Nat} {g : Nat → Byte → Byte} (h : s.ImagePass i n g)
    (hw : s.BlueWritten n) : ∃ m, exec i s = .next (s.completes m) ∧ s.RewritesBlue n g m := by
  obtain ⟨v, hv⟩ := State.blueBytes_of_written hw
  exact ⟨_, by rw [h.exec_eq, hv, needBytes_some], State.writeBlue_mapIdx hv g⟩

theorem State.ImagePass.rewrites {s t : State} {i : Instr} {n : Nat} {g : Nat → Byte → Byte} (h : s.ImagePass i n g)
    (ht : exec i s = .next t) : s.RewritesBlue n g t.mem := by
  rw [h.exec_eq] at ht
  obtain ⟨v, hv, ht⟩ := needBytes_eq_next.1 ht
  cases ht
  exact State.writeBlue_mapIdx hv g

/-! ### EMBED and CLEAR (R145, R147) -/

/-- Settles O17: EMBED's pass inserts bit t of DATA[0:N] at pixel t. -/
theorem embedWritesBits : Obligations.EmbedWritesBits := by
  intro s hD hN hc hdata hw
  obtain ⟨d, hd⟩ := State.dataBytes_of_written hdata
  obtain ⟨m, hexec, hm⟩ := (State.ImagePass.embed hD hN hc hd).completes hw
  refine ⟨m, hexec, fun t ht => ?_, hm.frame⟩
  obtain ⟨b, hb, hread⟩ := hm.pixel t ht
  exact ⟨b, d.getD (t / 8) 0, hb, (State.dataBytes_eq_some.1 hd).2 _ (by omega), by rw [hread, insertBit_bitAt]⟩

/-- Settles O19: CLEAR's pass clears the channel bit of every pixel. -/
theorem clearZeroesEveryLsb : Obligations.ClearZeroesEveryLsb := by
  intro s hD hw
  obtain ⟨m, hexec, hm⟩ := (State.ImagePass.clear hD).completes hw
  exact ⟨m, hexec, hm.pixel, hm.frame⟩

/-! ### An image command run twice (R148, R168) -/

/-- A pass rewrites a pixel twice as it does once. -/
theorem State.ImagePass.twice {s : State} {i : Instr} {n : Nat} {g : Nat → Byte → Byte} (h : s.ImagePass i n g)
    (p : Nat) (b : Byte) : g p (g p b) = g p b := by
  cases h with
  | clear => exact clearBit_clearBit b
  | embed | hide => exact insertBit_insertBit b _ _

/-- An image command that answers stored nothing, or got to its pixels. -/
theorem exec_image_next {i : Instr} {s t : State} (hi : i ∈ [Instr.clear, .embed, .hide]) (h : exec i s = .next t) :
    t.mem = s.mem ∨ ∃ n g, s.ImagePass i n g := by
  cases i with
  | clear =>
    rcases execClear_next h with ⟨_, _, rfl⟩ | ⟨hD, _⟩
    · exact .inl rfl
    · exact .inr ⟨_, _, .clear hD⟩
  | embed =>
    rcases execEmbed_next h with ⟨_, _, rfl⟩ | ⟨hD, hN, hc, d, _, hd, _⟩
    · exact .inl rfl
    · exact .inr ⟨_, _, .embed hD hN hc hd⟩
  | hide =>
    rcases execHide_next h with ⟨_, _, rfl⟩ | ⟨hD, hN, hK, hc, d, k, _, hd, hk, _⟩
    · exact .inl rfl
    · exact .inr ⟨_, _, .hide hD hN hK hc hd hk⟩
  | nop | cipher | recover | extract => exact absurd hi (by decide)

/-- A command that stores no DATA leaves the payload that a next one reads (R151). -/
theorem exec_dataBytes {i : Instr} {s t : State} (hp : s.params.Legal) (hi : i ∈ [Instr.nop, .embed, .clear, .hide])
    (hN : s.NOk) (h : exec i s = .next t) : t.dataBytes s.lenN = s.dataBytes s.lenN := by
  obtain ⟨-, hdata, -⟩ := buffersWrittenOnlyByTheirCommands i s t hp h
  exact Memory.readEvery_congr fun j hj => by rw [dataAddr_add]; exact hdata hi j (hj.trans_le hN)

/-- An image command run again makes the pass it made: it changes no length, no payload byte and no key byte. -/
theorem State.ImagePass.of_exec {i : Instr} {s t : State} {n : Nat} {g : Nat → Byte → Byte} (hp : s.params.Legal)
    (hst : exec i s = .next t) (h : t.ImagePass i n g) : s.ImagePass i n g := by
  obtain ⟨hparams, -⟩ := (exec_ends hst).keepsConfiguration
  obtain ⟨-, hsnap, -⟩ := (exec_ends hst).keepsHost
  obtain ⟨hlenN, hlenK, -⟩ := (exec_ends hst).keepsLengths
  obtain ⟨hcap, hdim⟩ := State.sameImage hparams (congrArg Snapshot.w hsnap) (congrArg Snapshot.h hsnap)
  cases h with
  | clear hD => exact hcap ▸ .clear (hdim.1 hD)
  | embed hD hN hc hd =>
    simp only [State.NOk, hcap, hlenN, hparams] at hN hc hd ⊢
    exact .embed (hdim.1 hD) hN hc (by rwa [exec_dataBytes hp (by decide) hN hst] at hd)
  | hide hD hN hK hc hd hk =>
    simp only [State.NOk, State.KOk, hcap, hlenN, hlenK, hparams] at hN hK hc hd hk ⊢
    exact .hide (hdim.1 hD) hN hK hc (by rwa [exec_dataBytes hp (by decide) hN hst] at hd)
      (by rwa [exec_keyBytes hp hK hst] at hk)

/-- Settles O34: the second run stores nothing, or makes the first run's pass again. -/
theorem imageCommandsIdempotent : Obligations.ImageCommandsIdempotent := by
  intro i s t u hp hi hst htu a
  rcases exec_image_next hi htu with hmem | ⟨n, g, hpass⟩
  · rw [hmem]
  · exact State.RewritesBlue.twice hpass.twice ((hpass.of_exec hp hst).rewrites hst) (hpass.rewrites htu) a

/-! ### What RECOVER and EXTRACT read after EMBED and after CLEAR (R148, R149, R167) -/

/-- A window whose pixels are written spells some bytes. -/
theorem State.windowSpells_of_written {s : State} (hw : s.BlueWritten s.nbits) : ∃ bs, s.WindowSpells bs := by
  obtain ⟨v, hv⟩ := State.blueBytes_of_written hw
  refine ⟨_, recovered_length hv, fun i hi j hj => ?_⟩
  obtain ⟨hblue, hbit⟩ := recovered_bit hv hi hj
  rw [hblue, hbit, Option.map_some]

/-- RECOVER past its checks stores the bytes its window spells. -/
theorem execRecover_spells {s : State} (hD : s.DimOk) (hM : s.MOk) (hw : s.BlueWritten s.nbits) {bs : List Byte}
    (hbs : s.WindowSpells bs) :
    exec .recover s = .next { s.completes (s.writeData bs).mem with recovLen := BitVec.ofNat 32 s.recovered } := by
  obtain ⟨v, hv⟩ := State.blueBytes_of_written hw
  rw [execRecover_ok hD hM hv, recovered_eq hbs hv]

/-- A pixel with bit `q` of `d` inserted carries that bit, wherever its blue byte is kept (R143, R144). -/
theorem State.RewritesBlue.embedded_bit {s u : State} {n : Nat} {d : List Byte} {m : Memory}
    (h : s.RewritesBlue n (fun p b => insertBit b (bitAt d p)) m) (hu : ∀ q < n, u.blue q = m.read (blueAddr q))
    {i j : Nat} (hi : 8 * i + j < n) (hj : j < 8) :
    (u.blue (8 * i + j)).map (·.getLsbD 0) = some ((d.getD i 0).getLsbD (7 - j)) := by
  obtain ⟨b, _, hread⟩ := h.pixel _ hi
  rw [hu _ hi, hread, Option.map_some, ← channelBit_eq, channelBit_insertBit, bitAt_byte d i hj]

/-- Settles O36: the first N bytes that the window spells are the bytes embedded. -/
theorem embedRecoverSymmetry : Obligations.EmbedRecoverSymmetry := by
  intro s t u _ hD hN hc hst hparams hw hh hblue hNM hM hwritten
  obtain ⟨hcap, hdim⟩ := State.sameImage hparams hw hh
  have hDu := hdim.2 hD
  have hNR : s.lenN ≤ u.recovered := by rw [State.recovered, State.nbits, hcap]; omega
  obtain ⟨d, hd, _⟩ := needBytes_eq_next.1 ((execEmbed_pass hD hN hc).symm.trans hst)
  obtain ⟨-, hdata⟩ := State.dataBytes_eq_some.1 hd
  have hembed := (State.ImagePass.embed hD hN hc hd).rewrites hst
  obtain ⟨bs, hlen, hbit⟩ := State.windowSpells_of_written hwritten
  refine ⟨_, execRecover_spells hDu hM hwritten ⟨hlen, hbit⟩, rfl, fun i hi => ?_⟩
  have hbyte : bs.getD i 0 = d.getD i 0 := byte_ext fun j hj =>
    Option.some.inj ((hbit i (by omega) j hj).symm.trans (hembed.embedded_bit hblue (by omega) hj))
  rw [hdata i hi, ← hbyte]
  exact State.writeData_read (by omega)

/-- Zero bytes hold no sentinel. -/
theorem findSentinel_replicate_zero (n : Nat) : findSentinel (List.replicate n 0) = none := by
  refine findSentinel_eq_none_iff.2 fun L _ => Bool.eq_false_iff.2 fun hat => ?_
  have hzero : List.replicate (min 6 (n - L)) 0 = sentinel := by
    simpa only [List.drop_replicate, List.take_replicate] using sentinelAt_iff.1 hat
  exact absurd ((List.eq_replicate_iff.1 hzero.symm).2 0x24 (by decide)) (by decide)

/-- A window inside a cleared image is written, and spells zero bytes (R148). -/
theorem State.RewritesBlue.cleared_window {s u : State} {n : Nat} {m : Memory}
    (h : s.RewritesBlue n (fun _ => clearBit) m) (hu : ∀ q < n, u.blue q = m.read (blueAddr q)) (hn : u.nbits ≤ n) :
    u.BlueWritten u.nbits ∧ u.WindowSpells (List.replicate u.recovered 0) := by
  have hcleared : ∀ q < n, ∃ b, u.blue q = some (clearBit b) := fun q hq => by
    obtain ⟨b, _, hread⟩ := h.pixel q hq
    exact ⟨b, (hu q hq).trans hread⟩
  refine ⟨fun q hq => ?_, List.length_replicate .., fun i hi j hj => ?_⟩
  · obtain ⟨b, hb⟩ := hcleared q (by omega)
    simp [hb]
  · obtain ⟨b, hb⟩ := hcleared (8 * i + j) (by rw [State.recovered] at hi; omega)
    rw [hb, List.getD_replicate _ hi, Option.map_some, ← channelBit_eq, channelBit_clearBit]
    exact congrArg some BitVec.getLsbD_zero.symm

/-- Settles O40: the window spells zeros, which are stored raw. -/
theorem clearDefeatsExtract : Obligations.ClearDefeatsExtract := by
  intro s t u hD hst hparams hw hh hblue hM
  obtain ⟨hcap, hdim⟩ := State.sameImage hparams hw hh
  have hDu := hdim.2 hD
  have hpass := (State.ImagePass.clear hD).rewrites hst
  obtain ⟨hwritten, hzeros⟩ := hpass.cleared_window hblue (hcap ▸ min_le_right _ _)
  have hread : ∀ i < u.recovered,
      (u.writeData (List.replicate u.recovered 0)).mem.read (dataAddr i) = some 0 := fun i hi => by
    rw [State.writeData_read (by rwa [List.length_replicate]), List.getD_replicate _ hi]
  exact ⟨⟨_, execRecover_spells hDu hM hwritten hzeros, hread⟩, fun hK =>
    ⟨_, execExtract_notFound hDu hK hM hwritten hzeros (findSentinel_replicate_zero _), rfl, rfl, hread⟩⟩

end Sys2Proof.Machine

/-! PROOFS. NOP (R160), and HIDE followed by EXTRACT: the image that HIDE leaves spells the framed stream, so EXTRACT
finds its sentinel when the recovery window holds all of it (R164) and not when the window is shorter (R165), whatever
key it deciphers with (R166). -/

namespace Sys2Proof.Machine

/-! ### NOP (R160) -/

/-- Settles O15: NOP is the normal end of a command. -/
theorem nopCompletesWithoutEffect : Obligations.NopCompletesWithoutEffect := fun s => by
  rw [execNop_eq, State.finish_eq]

/-! ### The sentinel in a longer and in a shorter stream (R132) -/

/-- Bytes after a stream do not move the sentinel found in it. -/
theorem findSentinel_append {f : List Byte} {L : Nat} (h : findSentinel f = some L) (r : List Byte) :
    findSentinel (f ++ r) = some L := by
  obtain ⟨hat, hleast⟩ := findSentinel_eq_some_iff.1 h
  have hle := le_length_of_sentinelAt hat
  exact findSentinel_eq_some_iff.2 ⟨(sentinelAt_append hle r).trans hat,
    fun L' hL' => (sentinelAt_append (by omega) r).trans (hleast L' hL')⟩

/-- A stream cut before the end of its first sentinel holds none. -/
theorem findSentinel_take {f : List Byte} {L n : Nat} (h : findSentinel f = some L) (hn : n < L + 6) :
    findSentinel (f.take n) = none := by
  obtain ⟨_, hleast⟩ := findSentinel_eq_some_iff.1 h
  refine findSentinel_eq_none_iff.2 fun L' hL' => ?_
  have hcut : L' + 6 ≤ n := hL'.trans (List.length_take_le ..)
  rw [← sentinelAt_append hL' (f.drop n), List.take_append_drop]
  exact hleast L' (by omega)

/-! ### An image that spells a stream -/

/-- The channel bits of the first pixels are those of the stream `f`, most significant bit first (R111, R144). -/
def State.ImageSpells (u : State) (f : List Byte) : Prop :=
  ∀ i < f.length, ∀ j < 8, (u.blue (8 * i + j)).map (·.getLsbD 0) = some ((f.getD i 0).getLsbD (7 - j))

/-- The image spells the framed stream wherever the blue bytes that HIDE wrote are kept (R161). -/
theorem execHide_imageSpells {s t u : State} {p k : List Byte} (hD : s.DimOk) (hN : s.NOk) (hK : s.KOk)
    (hc : 8 * (s.lenN + 6) ≤ s.cap) (hp : s.DataIs p) (hk : s.KeyIs k s.lenN) (hst : exec .hide s = .next t)
    (hblue : ∀ q < 8 * (s.lenN + 6), u.blue q = t.blue q) : u.ImageSpells (frame p k) := by
  obtain ⟨k', hk', happly⟩ := hk.bytes
  have hframe : frame p k' = frame p k := congrArg (· ++ sentinel) (happly p hp.1)
  have hpass := (State.ImagePass.hide hD hN hK hc (State.dataBytes_eq_some.2 hp) hk').rewrites hst
  intro i hi j hj
  rw [frame_length, hp.1] at hi
  rw [hpass.embedded_bit hblue (by omega) hj, hframe]

/-- The pixels of a stream are written. -/
theorem State.ImageSpells.written {u : State} {f : List Byte} {n : Nat} (h : u.ImageSpells f) (hn : n ≤ 8 * f.length) :
    u.BlueWritten n := by
  intro q hq hnone
  have hbit := h (q / 8) (by omega) (q % 8) (by omega)
  rw [Nat.div_add_mod, hnone] at hbit
  cases hbit

/-- A window as long as the stream or longer spells the stream first. -/
theorem State.ImageSpells.window_prefix {u : State} {f bs : List Byte} (h : u.ImageSpells f) (hbs : u.WindowSpells bs)
    (hlong : f.length ≤ u.recovered) : f <+: bs := by
  obtain ⟨hlen, hbit⟩ := hbs
  refine List.prefix_iff_eq_take.2 (eq_of_getD (x := 0) (List.length_take_of_le (by omega)).symm fun i hi => ?_)
  rw [getD_take hi]
  exact byte_ext fun j hj => Option.some.inj ((h i hi j hj).symm.trans (hbit i (by omega) j hj))

/-- A window no longer than the stream spells the stream's first bytes. -/
theorem State.ImageSpells.window_take {u : State} {f : List Byte} (h : u.ImageSpells f)
    (hshort : u.recovered ≤ f.length) : u.WindowSpells (f.take u.recovered) :=
  ⟨List.length_take_of_le hshort, fun i hi j hj => by rw [getD_take hi]; exact h i (by omega) j hj⟩

/-! ### EXTRACT from such an image (R162) -/

/-- With the whole stream in the window, EXTRACT finds the stream's sentinel and deciphers the bytes before it. -/
theorem State.ImageSpells.extract_found {u : State} {f k : List Byte} {L : Nat} (h : u.ImageSpells f)
    (hf : findSentinel f = some L) (hD : u.DimOk) (hK : u.KOk) (hM : u.MOk) (hw : u.BlueWritten u.nbits)
    (hlong : f.length ≤ u.recovered) (hk : u.KeyIs k L) :
    ∃ v, exec .extract u = .next v ∧ v.status.err = .none ∧ v.status.result = .found ∧
      v.foundLen = BitVec.ofNat 32 L ∧ ∀ i < L, v.data i = some ((applyKey (f.take L) k).getD i 0) := by
  obtain ⟨bs, hbs⟩ := State.windowSpells_of_written hw
  obtain ⟨r, rfl⟩ := h.window_prefix hbs hlong
  have hle := findSentinel_le hf
  have hlen : (applyKey (f.take L) k).length = L := by rw [applyKey_length, List.length_take_of_le (by omega)]
  obtain ⟨m, hexec, hdata, -⟩ := extractFoundDeciphers u _ k L hD hK hM hw hbs (findSentinel_append hf r) hk
  refine ⟨_, hexec, rfl, rfl, rfl, fun i hi => (hdata i hi).trans ?_⟩
  rw [List.take_append_of_le_length (by omega), List.getD_eq_getElem?_getD, List.getElem?_eq_getElem (by omega),
    Option.getD_some]

/-- With the window ending before the stream's sentinel does, EXTRACT answers NOT_FOUND. -/
theorem State.ImageSpells.extract_notFound {u : State} {f : List Byte} {L : Nat} (h : u.ImageSpells f)
    (hf : findSentinel f = some L) (hD : u.DimOk) (hK : u.KOk) (hM : u.MOk) (hshort : u.lenM < L + 6) :
    ∃ v, exec .extract u = .next v ∧ v.status.err = .none ∧ v.status.result = .notFound := by
  have hle := findSentinel_le hf
  have hbits : u.nbits ≤ 8 * u.lenM := min_le_left ..
  have hrec : u.recovered ≤ u.lenM := by rw [State.recovered]; omega
  exact ⟨_, execExtract_notFound hD hK hM (h.written (by omega)) (h.window_take (by omega))
    (findSentinel_take hf (by omega)), rfl, rfl⟩

/-! ### HIDE, then EXTRACT (R164, R165, R166) -/

/-- Settles O38: the window ends before the sentinel that HIDE appended does. -/
theorem shortWindowNotFound : Obligations.ShortWindowNotFound := by
  intro s t u p k _ hD hN hK hc hp hk hf hst hparams hw hh hblue hshort hM hKu
  obtain ⟨-, hdim⟩ := State.sameImage hparams hw hh
  exact (execHide_imageSpells hD hN hK hc hp hk hst hblue).extract_notFound hf (hdim.2 hD) hKu hM hshort

/-- Settles O39: the bytes before the sentinel are the payload ciphered with `k`, and EXTRACT ciphers them with `k'`. -/
theorem wrongKeyGivesXorOfKeys : Obligations.WrongKeyGivesXorOfKeys := by
  intro s t u p k k' _ hD hN hK hc hp hk hf hst hparams hw hh hblue hNM hM hKu hk' hwritten
  obtain ⟨hcap, hdim⟩ := State.sameImage hparams hw hh
  have hlen : (frame p k).length = s.lenN + 6 := by rw [frame_length, hp.1]
  have hlong : (frame p k).length ≤ u.recovered := by rw [hlen, State.recovered, State.nbits, hcap]; omega
  obtain ⟨v, hexec, herr, hres, hfound, hdata⟩ := (execHide_imageSpells hD hN hK hc hp hk hst hblue).extract_found hf
    (hdim.2 hD) hKu hM hwritten hlong hk'
  have hcipher : (frame p k).take s.lenN = applyKey p k := List.take_left' ((applyKey_length p k).trans hp.1)
  refine ⟨v, hexec, herr, hres, by rw [hfound, State.lenN, BitVec.ofNat_toNat, BitVec.setWidth_eq], fun i hi => ?_⟩
  have hip : i < p.length := hp.1.symm ▸ hi
  rw [hdata i hi, hcipher, applyKey_getD (by rwa [applyKey_length]), applyKey_getD hip]

/-- Settles O37: EXTRACT runs with HIDE's own key, and the two repeated keys cancel. -/
theorem hideExtractSymmetry : Obligations.HideExtractSymmetry := by
  intro s p k hlegal hD hN hK hc hp hk hf hwritten
  obtain ⟨m, hst, -⟩ := hideWritesFramedBits s p k hD hN hK hc hp hk hwritten
  refine ⟨_, hst, rfl, fun u hparams hw hh hsnapK hkey hblue hNM hM hwu => ?_⟩
  obtain ⟨hkept, -⟩ := buffersWrittenOnlyByTheirCommands .hide s _ hlegal hst
  have hlenK : u.lenK = s.lenK := congrArg BitVec.toNat hsnapK
  have hkeyIs : u.KeyIs k s.lenN := ⟨hk.1.trans hlenK.symm, fun i hi => by
    rw [hlenK] at hi
    rw [hkey i (by omega), hkept i (by omega), hk.2 i hi]⟩
  obtain ⟨v, hexec, herr, hres, hfound, hdata⟩ := wrongKeyGivesXorOfKeys s _ u p k k hlegal hD hN hK hc hp hk hf hst
    hparams hw hh hblue hNM hM (by rwa [State.KOk, hlenK, hparams]) hkeyIs hwu
  exact ⟨v, hexec, herr, hres, hfound, fun i hi => by
    rw [hdata i hi, BitVec.xor_assoc, BitVec.xor_self, BitVec.xor_zero]⟩

end Sys2Proof.Machine

/-! PROOFS. The aborts with DIM_RANGE and LEN_RANGE (R200–R203), the hazard of a buffer access while busy (R246), and
the independence of several LCX (R217). -/

namespace Sys2Proof.Machine

/-! ### DIM_RANGE and LEN_RANGE (R200–R203) -/

/-- Of two checks in a row that raise one code, it is enough that either fails, whatever comes after them (R201). -/
theorem firstError_of_either {c d : Option ErrCode} {e : ErrCode} {P Q : Prop} (hpass : c = none ↔ P)
    (hc : ¬ P → c = some e) (hd : ¬ Q → d = some e) (h : ¬ P ∨ ¬ Q) (cs : List (Option ErrCode)) :
    firstError (c :: d :: cs) = some e := by
  by_cases hP : P
  · rw [hpass.2 hP, hd (h.resolve_left (not_not_intro hP)), firstError_none, firstError_some]
  · rw [hc hP, firstError_some]

theorem firstError_checkN_checkK {s : State} (h : ¬ s.NOk ∨ ¬ s.KOk) (cs : List (Option ErrCode)) :
    firstError (s.checkN :: s.checkK :: cs) = some .lenRange :=
  firstError_of_either (checkN_eq_none s) checkN_bad checkK_bad h cs

theorem firstError_checkK_checkM {s : State} (h : ¬ s.KOk ∨ ¬ s.MOk) (cs : List (Option ErrCode)) :
    firstError (s.checkK :: s.checkM :: cs) = some .lenRange :=
  firstError_of_either (checkK_eq_none s) checkK_bad checkM_bad h cs

/-- Once W·H is in range, the checks after DIM_RANGE decide (R201). -/
theorem firstError_checkDim {s : State} (hD : s.DimOk) (cs : List (Option ErrCode)) :
    firstError (s.checkDim :: cs) = firstError cs := by
  rw [(checkDim_eq_none s).2 hD, firstError_none]

/-- Settles O23: each of the five commands checks W·H first. -/
theorem dimRangeAborts : Obligations.DimRangeAborts := by
  intro s i hi hD
  have habort (cs : List (Option ErrCode)) : firstError (s.checkDim :: cs) = some .dimRange := by
    rw [checkDim_bad hD, firstError_some]
  cases i with
  | nop | cipher => exact absurd hi (by decide)
  | embed | recover | clear | hide | extract => exact validated_err (habort _)

/-- Settles O24: of the lengths a command uses, the first out of range raises LEN_RANGE. -/
theorem lenRangeAborts : Obligations.LenRangeAborts := by
  refine fun s => ⟨fun h => ?cipher, fun hD hN => ?embed, fun hD hM => ?recover, fun hD h => ?hide,
    fun hD h => ?extract⟩
  case cipher => exact validated_err (firstError_checkN_checkK h _)
  case embed => exact validated_err (by rw [firstError_checkDim hD, checkN_bad hN, firstError_some])
  case recover => exact validated_err (by rw [firstError_checkDim hD, checkM_bad hM, firstError_some])
  case hide => exact validated_err ((firstError_checkDim hD _).trans (firstError_checkN_checkK h _))
  case extract => exact validated_err ((firstError_checkDim hD _).trans (firstError_checkK_checkM h _))

/-! ### A buffer access while busy (R246) -/

/-- A read that reaches a buffer while BUSY = 1 stops before it looks for the bytes. -/
theorem hostRead_busy {s : State} {a : Word} {n : AccessSize} (hb : s.status.busy = true)
    (ht : target s.params a.toNat n.bytes = .buffer) : hostRead a n s = .fault .busyHazard := by
  unfold hostRead; rw [ht]; exact if_pos hb

/-- A write that reaches a buffer while BUSY = 1 stops. -/
theorem hostWrite_busy {s : State} {a v : Word} {n : AccessSize} (hb : s.status.busy = true)
    (ht : target s.params a.toNat n.bytes = .buffer) : hostWrite a n v s = .fault .busyHazard := by
  unfold hostWrite; rw [ht]; exact if_pos hb

/-- Settles O52: the tick before the access leaves BUSY and the address map. -/
theorem busyBufferAccessStops : Obligations.BusyBufferAccessStops := by
  intro s a v n rest hturn hbusy halign hin hhost
  have htick : s.tick.status.busy = true := by rwa [State.tick_status]
  have htarget : target s.tick.params a.toNat n.bytes = .buffer := by
    rw [State.tick_params]; exact target_buffer halign hin
  rcases hhost with hhost | hhost <;> rw [step_hostTurn hturn hhost]
  · exact hostRead_busy (s := { s.tick with host := rest }) htick htarget
  · exact hostWrite_busy (s := { s.tick with host := rest }) htick htarget

/-! ### Several LCX (R217) -/

/-- With no LCX at place i nothing happens; else its own next state takes its place in the list. -/
theorem stepInstance_next {ss ts : List State} {i : Nat} (h : stepInstance ss i = .next ts) :
    (ss[i]? = none ∧ ts = ss) ∨ ∃ s t, ss[i]? = some s ∧ step s = .next t ∧ ts = ss.set i t := by
  unfold stepInstance at h
  split at h
  · rename_i hnone
    cases h
    exact .inl ⟨hnone, rfl⟩
  · rename_i s hs
    split at h
    · rename_i t ht
      cases h
      exact .inr ⟨s, t, hs, ht, rfl⟩
    · cases h
    · cases h

/-- Settles O60: the step sets place i of the list, or leaves the list. -/
theorem instancesAreIndependent : Obligations.InstancesAreIndependent := by
  intro ss ts i h
  rcases stepInstance_next h with ⟨hnone, rfl⟩ | ⟨s, t, hs, ht, rfl⟩
  · exact ⟨rfl, fun _ _ => rfl, fun s hs => absurd (hnone.symm.trans hs) nofun⟩
  · obtain ⟨hlt, -⟩ := List.getElem?_eq_some_iff.1 hs
    refine ⟨List.length_set, fun j hj => List.getElem?_set_ne hj.symm, fun s' hs' => ?_⟩
    obtain rfl : s = s' := Option.some.inj (hs.symm.trans hs')
    exact ⟨t, ht, List.getElem?_set_self hlt⟩

end Sys2Proof.Machine

/-! PROOFS. The reset input at a turn of the host. -/

namespace Sys2Proof.Machine

/-- R200: STATUS reads 0 when no flag is set and both codes are NONE. -/
theorem Status.toWord_cleared : (⟨false, false, false, .none, .none⟩ : Status).toWord = 0 := by decide

/-- R240: at any turn of the host, idle or busy, the reset input is taken and leads to the reset state. -/
theorem step_reset {s : State} {rest : List HostOp} (hturn : s.HostTurn) (hhost : s.host = .reset :: rest) :
    step s = .next ({ s.tick with host := rest } : State).hwReset := by
  rw [step_hostTurn hturn hhost, hostOp]

/-- Settles O56: every register and the memory are as reset gives them; the tick before it leaves the parameters and
the read log. -/
theorem resetAtAnyTime : Obligations.ResetAtAnyTime := by
  intro s rest hturn hhost
  refine ⟨_, step_reset hturn hhost, rfl, Status.toWord_cleared, rfl, rfl, rfl, rfl, rfl, rfl, rfl, ?unwritten,
    ?params, rfl, ?readLog⟩
  case unwritten => exact fun a => by rw [State.hwReset_mem, Memory.read_nil]
  case params => rw [State.hwReset_params, State.tick_params]
  case readLog => rw [State.hwReset_readLog, State.tick_readLog]

end Sys2Proof.Machine
